-- ==== Sys2Proof/Word.lean ====
section
/-! DEFINITION. The words of the machine: a byte of the instruction stream, the 72-bit instruction word (R50) and
the 66 bits that UNPACK hands on (R85), with the one notation for a group of their bits. -/

namespace Sys2Proof

/-- One byte of the instruction stream (R30, R51). -/
abbrev Byte := BitVec 8

/-- One complete instruction word, 72 bits (R50); value numbering, bit 0 the least significant (00_scope.md 6.2). -/
abbrev Word := BitVec 72

/-- The 66 bits `w[65:0]` below the opcode (R85). -/
abbrev Raw := BitVec 66

end Sys2Proof
end

