-- ==== Sys2Proof/Config.lean ====
section
/-! DEFINITION. The parameters of the hardware (00_scope.md R4, R5). Every value but those of `encAMode` and
`commentMark` is fixed by R4; those two are the spec's own defaults for what its source leaves open (D4, D15), and the
operations that use them take them as an argument. `CELL_BITS` and `STREAM_MAX` are unbounded (R5) and so have no
constant: a cell is a `Nat` and the stream is a list. -/

namespace Sys2Proof

/-- R88: where PACK writes field A. `separate` is the value the spec takes; the other two are its non-default values. -/
inductive EncAMode where
  /-- A has a position of its own, bits 65..60 (R83). -/
  | separate
  /-- A is OR-ed onto the opcode bits and its own position is left 0 (R88). -/
  | aliasOr
  /-- A nonzero A replaces the opcode bits and its own position is left 0 (R88). -/
  | aliasReplace
  deriving DecidableEq, Repr

namespace Config

/-- `WORD_BYTES`: bytes in one instruction word (R4). -/
@[simp] def wordBytes : Nat := 9

/-- `A_BITS`: width of field A (R4). -/
@[simp] def aBits : Nat := 6

/-- `B_BITS`: width of field B (R4). -/
@[simp] def bBits : Nat := 20

/-- `C_BITS`: width of field C (R4). -/
@[simp] def cBits : Nat := 16

/-- `D_BITS`: width of field D (R4). -/
@[simp] def dBits : Nat := 20

/-- `NUM_OPCODES`: the valid opcodes are 0..5 (R4). -/
@[simp] def numOpcodes : Nat := 6

/-- `MEM_CELLS`: cells in Memory (R4, R11). -/
abbrev memCells : Nat := 1024

/-- `SNAPSHOT_CELLS`: cells in the Result Snapshot (R4, R110). -/
@[simp] def snapshotCells : Nat := 256

/-- `ENC_A_MODE` as this hardware takes it (R5, R83). -/
@[simp] def encAMode : EncAMode := .separate

/-- `COMMENT_MARK` as this hardware takes it (R5, R67). -/
def commentMark : Char := '#'

end Config

end Sys2Proof
end

