-- ==== Sys2Proof/Syntax.lean ====
section
/-! DEFINITION. The instruction set (R58): one constructor per row of opcode_table.json. -/

namespace Sys2Proof

/-- The six instructions, opcodes 0 to 5 in this order. The arguments are the operand fields in layout order: A B C in
format F3 (R54), A B C D in format F4 (R55). A field value is an unsigned natural number (R62), unreduced; its width is a
matter of `Instr.wf`. Field A is part of every word and is consulted by no operation (R61). -/
inductive Instr where
  /-- LOAD_CONST, opcode 0: `mem[idx(B)] := C`, C a literal (R120). -/
  | loadConst (a b c : Nat)
  /-- LOAD_MEM, opcode 1: `mem[idx(B)] := mem[idx(C)]` (R121). -/
  | loadMem (a b c : Nat)
  /-- STORE_MEM, opcode 2: `mem[idx(B)] := mem[idx(C)] + mem[idx(D)]` (R130). -/
  | storeMem (a b c d : Nat)
  /-- BITWISE_OR, opcode 3: `mem[idx(B)] := mem[idx(C)] | mem[idx(D)]` (R131). -/
  | bitwiseOr (a b c d : Nat)
  /-- ADD, opcode 4: `mem[idx(B)] := mem[idx(B)] + mem[idx(C)]` (R140). -/
  | add (a b c : Nat)
  /-- XOR, opcode 5: `mem[idx(B)] := mem[idx(B)] ^ mem[idx(C)]` (R141). -/
  | xor (a b c : Nat)
  deriving DecidableEq, Repr

end Sys2Proof
end

