-- ==== Sys2Proof/WellFormed.lean ====
section
/-! DEFINITION. When an instruction's field values fit their fields (R53, R82): these are the instructions a word can
hold. A Bool, so that `decide` runs on it. -/

namespace Sys2Proof

/-- A value `v` fits a field of width `n` exactly when `v <= 2^n - 1` (R82). -/
def fits (v n : Nat) : Bool := v ≤ 2 ^ n - 1

/-- Every field of the instruction fits its width: A 6, B 20, C 16, and D 20 in format F4 (R82). -/
def Instr.wf : Instr → Bool
  | .loadConst a b c | .loadMem a b c | .add a b c | .xor a b c =>
    fits a Config.aBits && fits b Config.bBits && fits c Config.cBits
  | .storeMem a b c d | .bitwiseOr a b c d =>
    fits a Config.aBits && fits b Config.bBits && fits c Config.cBits && fits d Config.dBits

end Sys2Proof
end

