-- ==== Sys2Proof/Decode.lean ====
section
/-! DEFINITION. The codec (40_codec.md): the byte form of a word, UNPACK, EXTRACT and DECODE, and after them the encoder
PACK, all stateless (R21). Field positions are those of R53 (decisions D1, D2, D6; log 4). -/

namespace Sys2Proof

/-! ## Opcodes, formats and fields -/

/-- The operation an opcode names; R90 asks for a closed type with one constructor per operation. -/
inductive Opcode where
  | loadConst | loadMem | storeMem | bitwiseOr | add | xor
  deriving DecidableEq, Repr

/-- The two layouts: three operands A B C (R54), four operands A B C D (R55). -/
inductive Format where
  | f3 | f4
  deriving DecidableEq, Repr

/-- The names of the operand fields (R53). -/
inductive FieldName where
  | a | b | c | d
  deriving DecidableEq, Repr

/-- The fields EXTRACT answers, by layout (R86). -/
inductive Fields where
  | f3 (a b c : Nat)
  | f4 (a b c d : Nat)
  deriving DecidableEq, Repr

/-- EXTRACT's one refusal (R86, R150). -/
inductive ExtractError where
  /-- The opcode has no layout: it is in 6..63. -/
  | unknownOpcode (op : Nat)
  deriving DecidableEq, Repr

/-- PACK's two refusals (R150 to R152). -/
inductive PackError where
  /-- The opcode presented is above 5 (R81). -/
  | unknownOpcode (op : Nat)
  /-- The first field, in the order A, B, C, D, whose value exceeds its width, with that value (R82). -/
  | rangeError (field : FieldName) (value : Nat)
  deriving DecidableEq, Repr

/-- Why no instruction can be read off the front of a sequence of bytes. -/
inductive BlockError where
  /-- There are no bytes: the stream is exhausted. -/
  | endOfStream
  /-- One to eight bytes are left: they are not a word (R106). -/
  | truncatedWord (r : Nat)
  /-- A complete block whose opcode is in 6..63 (R60). -/
  | unknownOpcode (op : Nat)
  deriving DecidableEq, Repr

/-- R58: the number of each opcode, in list order (D3). -/
def Opcode.num : Opcode → Nat
  | .loadConst => 0
  | .loadMem => 1
  | .storeMem => 2
  | .bitwiseOr => 3
  | .add => 4
  | .xor => 5

/-- R58 read the other way: numbers above 5 name no operation. -/
def Opcode.ofNum? : Nat → Option Opcode
  | 0 => some .loadConst
  | 1 => some .loadMem
  | 2 => some .storeMem
  | 3 => some .bitwiseOr
  | 4 => some .add
  | 5 => some .xor
  | _ => none

/-- R59: the format is a function of the opcode alone. -/
def Opcode.format : Opcode → Format
  | .storeMem | .bitwiseOr => .f4
  | .loadConst | .loadMem | .add | .xor => .f3

/-! ## The word and its nine bytes -/

/-- R51: the nine bytes of a word in stream order, `byte[k] = w[71-8k : 64-8k]`. -/
def bytesOfWord (w : Word) : List Byte :=
  [w.extractLsb' 64 8, w.extractLsb' 56 8, w.extractLsb' 48 8, w.extractLsb' 40 8, w.extractLsb' 32 8,
   w.extractLsb' 24 8, w.extractLsb' 16 8, w.extractLsb' 8 8, w.extractLsb' 0 8]

/-- R36, R51: the number a sequence of bytes spells, the first byte the most significant. -/
def bigEndian (bs : List Byte) : Nat := bs.foldl (fun n b => n * 256 + b.toNat) 0

/-- R51: the word of a block, `w = byte[0]·2^64 + ... + byte[8]`. Meant for blocks of nine bytes. -/
def wordOfBytes (bs : List Byte) : Word := BitVec.ofNat 72 (bigEndian bs)

/-! ## UNPACK, EXTRACT, DECODE -/

/-- R85: UNPACK splits a word into its opcode `w[71:66]` and `raw = w[65:0]`; it accepts every word. -/
def unpack (w : Word) : BitVec 6 × Raw := (w.extractLsb' 66 6, w.extractLsb' 0 66)

/-- The check that opens EXTRACT: an opcode above 5 has no layout (R86). -/
def opcodeOf (op : BitVec 6) : Except ExtractError Opcode :=
  match Opcode.ofNum? op.toNat with
  | some o => .ok o
  | none => .error (.unknownOpcode op.toNat)

/-- R53, R86: the fields of `raw` in a format, as unsigned numbers; the pad bits are not looked at (R56). -/
def layout (f : Format) (raw : Raw) : Fields :=
  match f with
  | .f3 => .f3 (raw.extractLsb' 60 6).toNat (raw.extractLsb' 40 20).toNat (raw.extractLsb' 24 16).toNat
  | .f4 => .f4 (raw.extractLsb' 60 6).toNat (raw.extractLsb' 40 20).toNat (raw.extractLsb' 24 16).toNat
      (raw.extractLsb' 4 20).toNat

/-- R86: EXTRACT slices `raw` by the opcode's layout, or refuses the opcode. -/
def extract (op : BitVec 6) (raw : Raw) : Except ExtractError Fields :=
  (opcodeOf op).map fun o => layout o.format raw

/-- Field A of an extracted layout. -/
def Fields.a : Fields → Nat
  | .f3 a _ _ | .f4 a _ _ _ => a

/-- Field B of an extracted layout. -/
def Fields.b : Fields → Nat
  | .f3 _ b _ | .f4 _ b _ _ => b

/-- Field C of an extracted layout. -/
def Fields.c : Fields → Nat
  | .f3 _ _ c | .f4 _ _ c _ => c

/-- Field D of an extracted layout; F3 has none and nothing reads it there. -/
def Fields.d : Fields → Nat
  | .f3 _ _ _ => 0
  | .f4 _ _ _ d => d

/-- R90: the instruction an opcode and its extracted fields name. -/
def Instr.ofFields (o : Opcode) (f : Fields) : Instr :=
  match o with
  | .loadConst => .loadConst f.a f.b f.c
  | .loadMem => .loadMem f.a f.b f.c
  | .storeMem => .storeMem f.a f.b f.c f.d
  | .bitwiseOr => .bitwiseOr f.a f.b f.c f.d
  | .add => .add f.a f.b f.c
  | .xor => .xor f.a f.b f.c

/-- R90: DECODE on the word of a block: EXTRACT of UNPACK, together with the opcode. Total on all words (R65). -/
def decodeWord (w : Word) : Except ExtractError Instr :=
  (opcodeOf (unpack w).1).bind fun o => (extract (unpack w).1 (unpack w).2).map (Instr.ofFields o)

/-- The decoder on any bytes: the instruction of the first nine with the bytes after them, or the reason there is none. -/
def decodeBytes (bs : List Byte) : Except BlockError (Instr × List Byte) :=
  if bs.length = 0 then .error .endOfStream
  else if bs.length < Config.wordBytes then .error (.truncatedWord bs.length)
  else
    match decodeWord (wordOfBytes (bs.take Config.wordBytes)) with
    | .ok i => .ok (i, bs.drop Config.wordBytes)
    | .error (.unknownOpcode op) => .error (.unknownOpcode op)

/-- The decoder asked about a row of opcode_table.json. The table numbers the bits of the one 72-bit word, bit 0 its
least significant bit; bits from `nbits` up are 0. The word is laid out as the stream holds it and decoded (log 8). -/
def decodeTableWord (nbits w : Nat) : Option Instr :=
  match decodeBytes (bytesOfWord (BitVec.ofNat 72 (w % 2 ^ nbits))) with
  | .ok (i, _) => some i
  | .error _ => none

/-! ## PACK -/

/-- R83, R88: the sum PACK builds once its checks pass. `f4` says whether the format has a D field. -/
def packedNat (mode : EncAMode) (f4 : Bool) (op a b c d : Nat) : Nat :=
  (match mode with
    | .separate => op * 2 ^ 66 + a * 2 ^ 60
    | .aliasOr => (op ||| a) * 2 ^ 66
    | .aliasReplace => (if a = 0 then op else a) * 2 ^ 66)
  + b * 2 ^ 40 + c * 2 ^ 24 + (if f4 then d * 2 ^ 4 else 0)

/-- R80 to R84, R88: PACK. The opcode is checked first, then A, B, C and, in F4, D; the first failure is the answer
(D13). For an F3 opcode the D input is neither checked nor written (R84). -/
def pack (mode : EncAMode) (op a b c d : Nat) : Except PackError Word :=
  match Opcode.ofNum? op with
  | none => .error (.unknownOpcode op)
  | some o =>
    if 2 ^ Config.aBits - 1 < a then .error (.rangeError .a a)
    else if 2 ^ Config.bBits - 1 < b then .error (.rangeError .b b)
    else if 2 ^ Config.cBits - 1 < c then .error (.rangeError .c c)
    else if o.format = .f4 ∧ 2 ^ Config.dBits - 1 < d then .error (.rangeError .d d)
    else .ok (BitVec.ofNat 72 (packedNat mode (o.format = .f4) op a b c d))

/-- The opcode of an instruction. -/
def Instr.opcode : Instr → Opcode
  | .loadConst .. => .loadConst
  | .loadMem .. => .loadMem
  | .storeMem .. => .storeMem
  | .bitwiseOr .. => .bitwiseOr
  | .add .. => .add
  | .xor .. => .xor

/-- The operand fields of an instruction in its opcode's layout. -/
def Instr.fields : Instr → Fields
  | .loadConst a b c | .loadMem a b c | .add a b c | .xor a b c => .f3 a b c
  | .storeMem a b c d | .bitwiseOr a b c d => .f4 a b c d

/-- The encoder: PACK on the instruction's opcode and fields, with the `ENC_A_MODE` this hardware takes (R83). -/
def encode (i : Instr) : Except PackError Word :=
  pack Config.encAMode i.opcode.num i.fields.a i.fields.b i.fields.c i.fields.d

/-- A word of an opcode's format with its pad bits cleared: 24 in F3, 4 in F4 (R56, R89). -/
def clearPad (f : Format) (w : Word) : Word :=
  match f with
  | .f3 => BitVec.ofNat 72 (w.toNat / 2 ^ 24 * 2 ^ 24)
  | .f4 => BitVec.ofNat 72 (w.toNat / 2 ^ 4 * 2 ^ 4)

/-- R91: one hexadecimal digit, in the upper case of the spec's examples (notation only, D22). -/
def hexDigit (n : Nat) : Char :=
  if n < 10 then Char.ofNat (48 + n) else Char.ofNat (55 + n)

/-- R91: the hex word of a Log Entry: eighteen digits, `byte[0]` first. -/
def hexWord (w : Word) : List Char :=
  (bytesOfWord w).flatMap fun b => [hexDigit (b.toNat / 16), hexDigit (b.toNat % 16)]

end Sys2Proof
end

