-- ==== Sys2Proof/Machine/State.lean ====
section
/-! DEFINITION. The state of the interpreter core (10_state.md R22): Memory, the stream position and the error log; the
wrapper that gives the host's one-argument step the run's stream beside it; and the reasons a step can stop. -/

namespace Sys2Proof.Machine

/-- One listed cell of Memory: its number and the natural number it holds (R12). -/
abbrev Cell := Nat × Nat

/-- Memory (R11) in one canonical form: the cells that do not hold 0, in rising order. A cell that is not listed holds 0,
the value every cell has at the start of a run (R11, R44; log 5). -/
abbrev Memory := List Cell

/-- The index of a cell of Memory, 0 to 1023 (R11, R33). -/
abbrev CellIdx := Fin Config.memCells

/-- The canonical form: cell numbers strictly rising, each one of the 1024, and no cell listed that holds 0. -/
abbrev Memory.wf (m : Memory) : Prop :=
  m.Pairwise (fun x y => x.1 < y.1) ∧ ∀ x ∈ m, x.1 < Config.memCells ∧ x.2 ≠ 0

/-- The two kinds of run-time error (R15, R150). -/
inductive ErrKind where
  /-- The word's opcode is in 6..63 (R154). -/
  | unknownOpcode
  /-- Bytes are left after the last complete block (R155). -/
  | truncatedWord
  deriving DecidableEq, Repr

/-- One record of the error log (R15): the slot, the kind, and the opcode (R154) or the number of trailing bytes (R155). -/
structure ErrReport where
  slot : Nat
  kind : ErrKind
  info : Nat
  deriving DecidableEq, Repr

/-- R22: the complete architectural state, these three components and no more. The stream is an argument of the
operations that read it (R18, R19). -/
structure VmState where
  /-- R11: the 1024 cells. -/
  mem : Memory
  /-- R13: the index of the next word of the stream; unbounded. -/
  pc : Nat
  /-- R15: the error reports of the run so far, oldest first. -/
  errlog : List ErrReport
  deriving DecidableEq, Repr

/-- The host's state: the wrapper of a machine state `vm` (R22) with the argument of the run it is in, the stream (R18).
The host's interface has no other place for an argument of a run: its step takes one value (log 1). -/
structure State extends vm : VmState where
  /-- R18: the instruction stream of the run, first byte first. No state of the machine: no step writes it (R43). -/
  stream : List Byte
  deriving DecidableEq, Repr

/-- Why a step can stop with a fault: never. "No stream makes the interpreter fault, hang or get stuck" (R172), so the
type has no constructor (log 10). -/
inductive Fault where
  deriving DecidableEq, Repr

/-- Why a step can be refused. -/
inductive Refusal where
  /-- Raised by `exec` alone, for an instruction that has no meaning yet. Safe: the machine stops. No arm raises it. -/
  | notModelled (mnemonic : String)
  deriving DecidableEq, Repr

/-- R180: every cell 0, `pc` 0, `errlog` empty. -/
def VmState.reset : VmState := { mem := [], pc := 0, errlog := [] }

/-- R180: the machine at reset, and no stream handed over yet, that is the empty stream (R109; log 1). -/
def State.reset : State := { vm := VmState.reset, stream := [] }

end Sys2Proof.Machine
end

