-- ==== Sys2Proof/Machine/Ops.lean ====
section
/-! DEFINITION. The named operations of the machine: reading and writing a cell, moving to the next word, raising an
ExecutionError, and fetching a block of the stream. -/

namespace Sys2Proof.Machine

/-! ## Memory -/

/-- The content of cell `k`: what is listed for it, else 0 (R11). -/
def Memory.read : Memory → Nat → Nat
  | [], _ => 0
  | (a, v) :: m, k => if a = k then v else Memory.read m k

/-- Memory without what it lists for cell `k`. -/
def Memory.erase (m : Memory) (k : Nat) : Memory := m.filter fun x => x.1 ≠ k

/-- A cell put in its place in the rising order. -/
def Memory.insert : Memory → Cell → Memory
  | [], x => [x]
  | y :: m, x => if x.1 < y.1 then x :: y :: m else y :: Memory.insert m x

/-- Cell `k` set to `v`. Writing 0 leaves the cell unlisted, so the canonical form is kept. -/
def Memory.write (m : Memory) (k v : Nat) : Memory :=
  if v = 0 then m.erase k else (m.erase k).insert (k, v)

/-- `MemRead(i, 1)` (00_scope.md 6.3, R35). -/
def VmState.memRead (v : VmState) (i : CellIdx) : Nat := v.mem.read i

/-- `MemWrite(i, 1, x)` (00_scope.md 6.3, R35). -/
def VmState.memWrite (v : VmState) (i : CellIdx) (x : Nat) : VmState := { v with mem := v.mem.write i x }

/-! ## The stream position and the error log -/

/-- R107: `pc <- pc + 1`. -/
def VmState.advance (v : VmState) : VmState := { v with pc := v.pc + 1 }

/-- R153: `raise ExecutionError(kind, info)`, the machine's only exception. It appends the record `(pc, kind, info)` and
does nothing else: nothing is saved, no mode changes and there is no handler. The advance that follows is the run
loop's (R107); there is no return from it (R160). -/
def VmState.raise (v : VmState) (kind : ErrKind) (info : Nat) : VmState :=
  { v with errlog := v.errlog ++ [{ slot := v.pc, kind := kind, info := info }] }

/-- The end every instruction has: one cell written, then the advance (R105, R107). -/
def VmState.finish (v : VmState) (i : CellIdx) (x : Nat) : VmState := (v.memWrite i x).advance

/-- Every step is a function of the machine's state, and leaves the run's stream as it is (R18, R43). -/
def State.onVm (s : State) (f : VmState → VmState) : Host.Outcome State Fault Refusal :=
  .next ⟨f s.vm, s.stream⟩

/-! ## The stream, an argument of the operations that read it (R18) -/

/-- R100: the number of complete blocks of a stream. -/
def wordCount (stream : List Byte) : Nat := stream.length / Config.wordBytes

/-- R106: how many bytes follow the last complete block. -/
def tailBytes (stream : List Byte) : Nat := stream.length % Config.wordBytes

/-- R38, R101: block `k` of a stream, bytes `9k` to `9k + 8`. -/
def blockAt (stream : List Byte) (k : Nat) : List Byte :=
  (stream.drop (Config.wordBytes * k)).take Config.wordBytes

/-- R36, R101: the word the sequencer fetches. -/
def VmState.fetch (v : VmState) (stream : List Byte) : Word := wordOfBytes (blockAt stream v.pc)

/-- R106: whether the report on the trailing bytes has been made. -/
def VmState.tailReported (v : VmState) : Bool := v.errlog.any fun r => r.kind = .truncatedWord

/-- R106: what is left to do when no complete block remains: report the trailing bytes, once. -/
def VmState.endOfStream (v : VmState) (stream : List Byte) : VmState :=
  if tailBytes stream = 0 || v.tailReported then v else v.raise .truncatedWord (tailBytes stream)

/-- R19, R108: the run is over: every block is consumed and the check on the tail has been made. -/
def VmState.over (v : VmState) (stream : List Byte) : Bool :=
  decide (wordCount stream ≤ v.pc) && (tailBytes stream = 0 || v.tailReported)

/-! ## Handing a stream over -/

/-- R8, R180, R183: the machine at the start of a run of `stream`. -/
def State.load (stream : List Byte) : State := { vm := VmState.reset, stream := stream }

/-- A stream with the nine bytes of slot `k` replaced by those of `w`, lengthened with zero bytes as far as that slot
needs. This is the host's act of handing over a stream, not the machine's (log 8). -/
def placeWord (stream : List Byte) (k : Nat) (w : Word) : List Byte :=
  let at9 := Config.wordBytes * k
  stream.take at9 ++ List.replicate (at9 - stream.length) 0 ++ bytesOfWord w
    ++ stream.drop (at9 + Config.wordBytes)

end Sys2Proof.Machine
end

