-- ==== Sys2Proof/Machine/Operands.lean ====
section
/-! DEFINITION. The operand forms (20_memory.md R34): an address field, reduced by the memory indexer, and the literal
of LOAD_CONST, which is not. Field A is no operand (R61). -/

namespace Sys2Proof.Machine

/-- R32: the memory indexer, `idx(v) = v mod 1024`. -/
def idx (v : Nat) : CellIdx := ⟨v % Config.memCells, Nat.mod_lt _ (by decide)⟩

/-- R103: the value of a source address field: the content of the cell it names. -/
def VmState.source (s : VmState) (v : Nat) : Nat := s.memRead (idx v)

/-- R34, R62: the value of LOAD_CONST's field C, unreduced (C1, D7). -/
def literal (c : Nat) : Nat := c

end Sys2Proof.Machine
end

