-- ==== Sys2Proof/Machine/Flags.lean ====
section
/-! DEFINITION. What the instructions compute. R14: the hardware has no flags and no condition codes, so an operation
has a result and nothing beside it. Cells are unbounded, so no result is cut (R12, D8). -/

namespace Sys2Proof.Machine

/-- R12: the exact sum, with no width, carry or overflow. -/
def sumOf (v1 v2 : Nat) : Nat := v1 + v2

/-- R131: bitwise OR, the shorter number padded with zeros on the left. -/
def orOf (v1 v2 : Nat) : Nat := v1 ||| v2

/-- R141: bitwise exclusive OR, with the same padding. -/
def xorOf (v1 v2 : Nat) : Nat := v1 ^^^ v2

end Sys2Proof.Machine
end

