-- ==== Sys2Proof/Machine/Accumulate.lean ====
section
/-! DEFINITION. Accumulate instructions (44_accumulate.md): ADD and XOR. The cell that B names is the first source and
the destination; both reads see its old value (R41). -/

namespace Sys2Proof.Machine

/-- R140: ADD, `mem[idx(B)] <- mem[idx(B)] + mem[idx(C)]`. -/
def execAdd (_a b c : Nat) (s : State) : Host.Outcome State Fault Refusal :=
  s.onVm fun v => v.finish (idx b) (sumOf (v.source b) (v.source c))

/-- R141: XOR, `mem[idx(B)] <- mem[idx(B)] ^ mem[idx(C)]`. -/
def execXor (_a b c : Nat) (s : State) : Host.Outcome State Fault Refusal :=
  s.onVm fun v => v.finish (idx b) (xorOf (v.source b) (v.source c))

end Sys2Proof.Machine
end

