-- ==== Sys2Proof/Machine/Moves.lean ====
section
/-! DEFINITION. Data movement (42_moves.md): LOAD_CONST and LOAD_MEM. -/

namespace Sys2Proof.Machine

/-- R120: LOAD_CONST, `mem[idx(B)] <- C`, C unreduced. -/
def execLoadConst (_a b c : Nat) (s : State) : Host.Outcome State Fault Refusal :=
  s.onVm fun v => v.finish (idx b) (literal c)

/-- R121: LOAD_MEM, `mem[idx(B)] <- mem[idx(C)]`. -/
def execLoadMem (_a b c : Nat) (s : State) : Host.Outcome State Fault Refusal :=
  s.onVm fun v => v.finish (idx b) (v.source c)

end Sys2Proof.Machine
end

