-- ==== Sys2Proof/Machine/ThreeAddress.lean ====
section
/-! DEFINITION. Three-address instructions (43_three_address.md): STORE_MEM and BITWISE_OR. Both sources are read before
the destination is written (R41). -/

namespace Sys2Proof.Machine

/-- R130: STORE_MEM, `mem[idx(B)] <- mem[idx(C)] + mem[idx(D)]`. -/
def execStoreMem (_a b c d : Nat) (s : State) : Host.Outcome State Fault Refusal :=
  s.onVm fun v => v.finish (idx b) (sumOf (v.source c) (v.source d))

/-- R131: BITWISE_OR, `mem[idx(B)] <- mem[idx(C)] | mem[idx(D)]`. -/
def execBitwiseOr (_a b c d : Nat) (s : State) : Host.Outcome State Fault Refusal :=
  s.onVm fun v => v.finish (idx b) (orOf (v.source c) (v.source d))

end Sys2Proof.Machine
end

