-- ==== Sys2Proof/Machine/Dispatch.lean ====
section
/-! DEFINITION. The dispatch unit (R105): one arm per instruction. -/

namespace Sys2Proof.Machine

/-- R105: exactly one arm runs, chosen by the instruction alone; each includes the advance of R107. -/
def exec (i : Instr) (s : State) : Host.Outcome State Fault Refusal :=
  match i with
  | .loadConst a b c => Sys2Proof.Machine.execLoadConst a b c s
  | .loadMem a b c => Sys2Proof.Machine.execLoadMem a b c s
  | .storeMem a b c d => Sys2Proof.Machine.execStoreMem a b c d s
  | .bitwiseOr a b c d => Sys2Proof.Machine.execBitwiseOr a b c d s
  | .add a b c => Sys2Proof.Machine.execAdd a b c s
  | .xor a b c => Sys2Proof.Machine.execXor a b c s

end Sys2Proof.Machine
end

