-- ==== Sys2Proof/Machine/Loop.lean ====
section
/-! DEFINITION. One turn of the run loop (41_interpreter.md R100 to R108). -/

namespace Sys2Proof.Machine

/-- R101, R102, R104, R105: one word fetched, decoded and executed, or its opcode reported and the word skipped. -/
def stepWord (s : State) : Host.Outcome State Fault Refusal :=
  match decodeWord (s.vm.fetch s.stream) with
  | .ok i => exec i s
  | .error (.unknownOpcode op) => s.onVm fun v => (v.raise .unknownOpcode op).advance

/-- R100: while `pc < nwords` one word a step; after the last word the check on the trailing bytes, as one further step
where there are any (R106; log 3). Once the run is over a step changes nothing (log 2). -/
def loopStep (s : State) : Host.Outcome State Fault Refusal :=
  if s.pc < wordCount s.stream then stepWord s else s.onVm fun v => v.endOfStream s.stream

end Sys2Proof.Machine
end

