-- ==== Sys2Proof/Machine/Step.lean ====
section
/-! DEFINITION. The machine's step, and the host's way of putting one instruction where the next step fetches. -/

namespace Sys2Proof.Machine

/-- One step of the interpreter core: `loopStep`. -/
def step (s : State) : Host.Outcome State Fault Refusal := loopStep s

/-- The state with the table's word `w` in the slot that `step` fetches next: the host hands over a stream that holds it
there (R8; log 8). The bits of `w` are numbered as opcode_table.json numbers them; those from `nbits` up are 0. -/
def State.withFetchWord (s : State) (nbits w : Nat) : State :=
  { s with stream := placeWord s.stream s.pc (BitVec.ofNat 72 (w % 2 ^ nbits)) }

end Sys2Proof.Machine
end

