-- ==== Sys2Proof/Machine/Assembler.lean ====
section
/-! DEFINITION. The source-text form of instructions (30_encoding.md R66 to R75): what the Assembler fixes of the
instruction set, namely mnemonics, operand order and the errors that stop a word from being produced (R3). It is software
in front of the hardware; nothing in the run loop uses it. Text is a list of characters; log 9 lists what the spec leaves
open here. -/

namespace Sys2Proof

/-- R69: the catalog's name of each opcode. -/
def Opcode.mnemonic : Opcode → List Char
  | .loadConst => ['L', 'O', 'A', 'D', '_', 'C', 'O', 'N', 'S', 'T']
  | .loadMem => ['L', 'O', 'A', 'D', '_', 'M', 'E', 'M']
  | .storeMem => ['S', 'T', 'O', 'R', 'E', '_', 'M', 'E', 'M']
  | .bitwiseOr => ['B', 'I', 'T', 'W', 'I', 'S', 'E', '_', 'O', 'R']
  | .add => ['A', 'D', 'D']
  | .xor => ['X', 'O', 'R']

/-- R71: how many operands a format takes. -/
def Format.arity : Format → Nat
  | .f3 => 3
  | .f4 => 4

end Sys2Proof

namespace Sys2Proof.Machine

/-- R150: the classes of the errors that abort an assembly. -/
inductive AsmClass where
  | syntaxError | rangeError
  deriving DecidableEq, Repr

/-- Why no stream is produced (R70, R72 to R74). -/
inductive AsmError where
  /-- R73: the first token is no mnemonic of the catalog. -/
  | unknownMnemonic (token : List Char)
  /-- R70: an operand token is not a non-negative decimal integer. -/
  | malformedOperand (token : List Char)
  /-- R72: fewer operands than the format has fields. -/
  | missingOperands
  /-- R72: more operands than the format has fields (D16). -/
  | surplusOperands
  /-- R74: PACK refused the line's word. -/
  | packError (e : PackError)
  deriving DecidableEq, Repr

/-- R150: the class of each error. A RangeError of PACK is of the RangeError class. DESIGN CHOICE (log 16): PACK's
UnknownOpcode, which the spec gives no class and which the Assembler cannot reach (R152), is put with it, since both are
PACK's refusals. -/
def AsmError.cls : AsmError → AsmClass
  | .packError _ => .rangeError
  | _ => .syntaxError

/-- R74: one record per assembled instruction: mnemonic, resolved field values, word. -/
structure LogEntry where
  op : Opcode
  fields : List Nat
  word : Word
  deriving DecidableEq, Repr

/-- The characters that separate tokens (R68): space, tab, line feed, vertical tab, form feed, carriage return (log 9). -/
def isSpaceChar (c : Char) : Bool := c.toNat = 32 || (9 ≤ c.toNat && c.toNat ≤ 13)

/-- A text cut at every character that satisfies `p`, empty pieces kept. -/
def splitAtChar (p : Char → Bool) : List Char → List (List Char)
  | [] => [[]]
  | c :: cs =>
    if p c then [] :: splitAtChar p cs
    else
      match splitAtChar p cs with
      | [] => [[c]]
      | t :: ts => (c :: t) :: ts

/-- R66: one instruction per line; the line feed ends a line (log 9). -/
def linesOf (text : List Char) : List (List Char) := splitAtChar (fun c => c.toNat = 10) text

/-- R68: the whitespace-separated tokens of a line. -/
def tokensOf (line : List Char) : List (List Char) := (splitAtChar isSpaceChar line).filter fun t => t ≠ []

/-- R69: the letters a to z in upper case, every other character as it is. -/
def upperChar (c : Char) : Char := if 97 ≤ c.toNat && c.toNat ≤ 122 then Char.ofNat (c.toNat - 32) else c

/-- R58, R69: the opcode catalog, in the order of the numbers. -/
def catalog : List Opcode := [.loadConst, .loadMem, .storeMem, .bitwiseOr, .add, .xor]

/-- R69: a token looked up in the catalog, letter case not significant. -/
def lookupMnemonic (token : List Char) : Option Opcode :=
  catalog.find? fun o => o.mnemonic = token.map upperChar

/-- R70: one or more digits, leading zeros allowed, and nothing else (D17). -/
def parseOperand (token : List Char) : Option Nat :=
  if token ≠ [] && token.all fun c => 48 ≤ c.toNat && c.toNat ≤ 57 then
    some (token.foldl (fun n c => n * 10 + (c.toNat - 48)) 0)
  else none

/-- The operands of a line, or the first malformed one. -/
def parseOperands : List (List Char) → Except AsmError (List Nat)
  | [] => .ok []
  | t :: ts =>
    match parseOperand t with
    | none => .error (.malformedOperand t)
    | some v => (parseOperands ts).map fun vs => v :: vs

/-- R71, R72, R74: operands bound to the fields in order and given to PACK. -/
def packLine (o : Opcode) (vs : List Nat) : Except AsmError LogEntry :=
  if vs.length < o.format.arity then .error .missingOperands
  else if o.format.arity < vs.length then .error .surplusOperands
  else
    match pack Config.encAMode o.num (vs.getD 0 0) (vs.getD 1 0) (vs.getD 2 0) (vs.getD 3 0) with
    | .error e => .error (.packError e)
    | .ok w => .ok { op := o, fields := vs, word := w }

/-- R66 to R72: one line: nothing for a blank or comment-marked line, else one instruction. -/
def assembleLine (mark : Char) (line : List Char) : Except AsmError (Option LogEntry) :=
  match tokensOf line with
  | [] => .ok none
  | m :: ts =>
    if m.head? = some mark then .ok none
    else
      match lookupMnemonic m with
      | none => .error (.unknownMnemonic m)
      | some o => ((parseOperands ts).bind (packLine o)).map some

/-- R74: the lines in source order, all or nothing. -/
def assembleLines (mark : Char) : List (List Char) → Except AsmError (List LogEntry)
  | [] => .ok []
  | l :: ls =>
    match assembleLine mark l with
    | .error e => .error e
    | .ok none => assembleLines mark ls
    | .ok (some x) => (assembleLines mark ls).map fun xs => x :: xs

/-- R74: `assemble(program_text) -> (instruction_stream, log_document)`. -/
def assemble (text : List Char) : Except AsmError (List Byte × List LogEntry) :=
  (assembleLines Config.commentMark (linesOf text)).map fun log =>
    (log.flatMap fun x => bytesOfWord x.word, log)

end Sys2Proof.Machine
end

