-- ==== Sys2Proof/Machine/Operation.lean ====
section
/-! DEFINITION. The operation a word denotes: the arm of the dispatch table that runs (41_interpreter.md R105) and the
values it runs with, as R103 forms them. What of a word is ignored (field A, the pad bits, the upper bits of an address) is
no part of it, so many words denote one operation (30_encoding.md R64). -/

namespace Sys2Proof.Machine

/-- R105: the six arms, with `b`, `c`, `d` the cells formed by R103; LOAD_CONST has its literal (log 12). -/
inductive Operation where
  | loadConst (b literal : Nat)
  | loadMem (b c : Nat)
  | storeMem (b c d : Nat)
  | bitwiseOr (b c d : Nat)
  | add (b c : Nat)
  | xor (b c : Nat)
  deriving DecidableEq, Repr

/-- R103: the operation of an instruction, the reductions written out and field A dropped. -/
def Operation.ofInstr : Instr → Operation
  | .loadConst _ b c => .loadConst (b % 1024) c
  | .loadMem _ b c => .loadMem (b % 1024) (c % 1024)
  | .storeMem _ b c d => .storeMem (b % 1024) (c % 1024) (d % 1024)
  | .bitwiseOr _ b c d => .bitwiseOr (b % 1024) (c % 1024) (d % 1024)
  | .add _ b c => .add (b % 1024) (c % 1024)
  | .xor _ b c => .xor (b % 1024) (c % 1024)

/-- R58, R105: the table of the arms, each a function on Memory, written apart from the machine's meanings. -/
def Operation.effect (o : Operation) (m : Memory) : Memory :=
  match o with
  | .loadConst b literal => m.write b literal
  | .loadMem b c => m.write b (m.read c)
  | .storeMem b c d => m.write b (m.read c + m.read d)
  | .bitwiseOr b c d => m.write b (m.read c ||| m.read d)
  | .add b c => m.write b (m.read b + m.read c)
  | .xor b c => m.write b (m.read b ^^^ m.read c)

/-- R64, R102 to R105: the operation that executing a word carries out, or the refusal of its opcode. -/
def Operation.ofWord (w : Word) : Except ExtractError Operation := (decodeWord w).map Operation.ofInstr

end Sys2Proof.Machine
end

