-- ==== Sys2Proof/Machine/Run.lean ====
section
/-! DEFINITION. A whole run (41_interpreter.md): RUN and SNAPSHOT (R100, R110), and beside them the same run as a fold
over the blocks of the stream (R111), written from the dispatch table alone and not from the machine's meanings. -/

namespace Sys2Proof.Machine

/-- What a run hands back to the host (R8, R100): the Result Snapshot and the error reports. -/
structure RunResult where
  snapshot : List Nat
  errlog : List ErrReport
  deriving DecidableEq, Repr

/-- R110: SNAPSHOT, cells 0 to 255 in order, however many were written. -/
def snapshot (m : Memory) : List Nat := (List.range Config.snapshotCells).map m.read

/-- R110, R156: what the machine answers to the host, which it does only when the run is over. -/
def VmState.result (v : VmState) (stream : List Byte) : Option RunResult :=
  if v.over stream then some { snapshot := snapshot v.mem, errlog := v.errlog } else none

/-- `STEP(stream)` (R100 to R107): the step as a function of the machine's state, the stream its argument (R18). -/
def stepOf (stream : List Byte) (v : VmState) : Host.Outcome VmState Fault Refusal :=
  match step { vm := v, stream := stream } with
  | .next s => .next s.vm
  | .fault r => .fault r
  | .refused r => .refused r

/-- The loop of R100: `n` times `STEP(stream)`. -/
def stepsOf (stream : List Byte) : Nat → VmState → Host.Outcome VmState Fault Refusal
  | 0, v => .next v
  | n + 1, v =>
    match stepOf stream v with
    | .next v' => stepsOf stream n v'
    | .fault r => .fault r
    | .refused r => .refused r

/-- R100: the state in which `RUN(stream)` ends, line by line: the start values, one STEP for each block, and the check on
the tail. -/
def finalOf (stream : List Byte) : Option VmState :=
  match stepsOf stream (wordCount stream) VmState.reset with
  | .next v => some (v.endOfStream stream)
  | .fault _ => none
  | .refused _ => none

/-- R100: `RUN(stream)`, its last line: the snapshot of the final Memory, with the error log. -/
def run (stream : List Byte) : Option RunResult :=
  (finalOf stream).map fun v => { snapshot := snapshot v.mem, errlog := v.errlog }

/-! ## R111: the fold -/

/-- The table of R58 as a function on Memory: the effect of the instruction's operation. -/
def tableEffect (i : Instr) (m : Memory) : Memory := (Operation.ofInstr i).effect m

/-- R111: `exec(mem, block)`: the new Memory, or the opcode to report. -/
def execBlock (m : Memory) (block : List Byte) : Except Nat Memory :=
  match decodeWord (wordOfBytes block) with
  | .ok i => .ok (tableEffect i m)
  | .error (.unknownOpcode op) => .error op

/-- R111: the complete blocks of a stream, in order. -/
def blocksOf (stream : List Byte) : List (List Byte) := (List.range (wordCount stream)).map (blockAt stream)

/-- R111: one step of the fold, on the block of slot `block.2`. -/
def foldStep (acc : Memory × List ErrReport) (block : List Byte × Nat) : Memory × List ErrReport :=
  match execBlock acc.1 block.1 with
  | .ok m => (m, acc.2)
  | .error op => (acc.1, acc.2 ++ [{ slot := block.2, kind := .unknownOpcode, info := op }])

/-- R106: the report on the trailing bytes, if there are any. -/
def tailReport (stream : List Byte) : List ErrReport :=
  if tailBytes stream = 0 then []
  else [{ slot := wordCount stream, kind := .truncatedWord, info := tailBytes stream }]

/-- R111: the final `(mem, errlog)` as a left fold over the blocks, from the all-zero Memory. -/
def foldFinal (stream : List Byte) : Memory × List ErrReport :=
  let acc := (blocksOf stream).zipIdx.foldl foldStep ([], [])
  (acc.1, acc.2 ++ tailReport stream)

/-- R110, R111: what the fold answers to the host. -/
def foldRun (stream : List Byte) : RunResult :=
  { snapshot := snapshot (foldFinal stream).1, errlog := (foldFinal stream).2 }

end Sys2Proof.Machine
end

