-- ==== Sys2Proof/Safety.lean ====
section
/-! DEFINITION. The terms claims use: what must hold of every state of a run (10_state.md R23). Every step is safe in the
sense of R172: there is no fault to reach, so safety here is this invariant. -/

namespace Sys2Proof.Machine

/-- R15, R154, R155: what a record of the error log may say in a state. An unknown opcode was met at an earlier slot and
is in 6..63; the report on the trailing bytes is made at the end of the stream and counts them. -/
abbrev ErrReport.fits (r : ErrReport) (s : State) : Prop :=
  (r.kind = .unknownOpcode → r.slot < s.pc ∧ 6 ≤ r.info ∧ r.info ≤ 63) ∧
  (r.kind = .truncatedWord →
    r.slot = s.pc ∧ s.pc = wordCount s.stream ∧ r.info = tailBytes s.stream ∧ r.info ≠ 0)

/-- R23, as an invariant of one step: Memory in canonical form, `pc` at most `nwords`, the records of `errlog` in strictly
rising slot order and each fitting the state. -/
abbrev State.Inv (s : State) : Prop :=
  s.mem.wf ∧ s.pc ≤ wordCount s.stream ∧ s.errlog.Pairwise (fun r q => r.slot < q.slot) ∧
  ∀ r ∈ s.errlog, r.fits s

/-! ## Source text (R66 to R74) -/

/-- R66, R67: a line is an instruction if it has a token and its first one does not begin with `#`. -/
def isInstructionLine (line : List Char) : Bool :=
  match tokensOf line with
  | [] => false
  | m :: _ => m.head? ≠ some '#'

/-- R69 to R72, R74: the log entry an instruction line names: its first token the mnemonic, each further token the value of
one field, in order and as many as the format has, and the word PACK makes of them. -/
abbrev LineNames (line : List Char) (x : LogEntry) : Prop :=
  ∃ m ts, tokensOf line = m :: ts ∧ lookupMnemonic m = some x.op ∧
    List.Forall₂ (fun t v => parseOperand t = some v) ts x.fields ∧
    x.fields.length = (if x.op = .storeMem ∨ x.op = .bitwiseOr then 4 else 3) ∧
    pack Config.encAMode x.op.num (x.fields.getD 0 0) (x.fields.getD 1 0) (x.fields.getD 2 0) (x.fields.getD 3 0) =
      .ok x.word

end Sys2Proof.Machine

namespace Sys2Proof

/-- R24: the opcodes whose result can exceed both of their inputs. -/
def Instr.adds : Instr → Bool
  | .storeMem .. | .add .. => true
  | .loadConst .. | .loadMem .. | .bitwiseOr .. | .xor .. => false

/-- The field that names the one cell an instruction writes: B in every instruction (R34). -/
def Instr.dest : Instr → Nat
  | .loadConst _ b _ | .loadMem _ b _ | .add _ b _ | .xor _ b _ => b
  | .storeMem _ b _ _ | .bitwiseOr _ b _ _ => b

/-- R71: the operands of an instruction in the order in which a source line gives them. -/
def Instr.operands : Instr → List Nat
  | .loadConst a b c | .loadMem a b c | .add a b c | .xor a b c => [a, b, c]
  | .storeMem a b c d | .bitwiseOr a b c d => [a, b, c, d]

/-- The same instruction with another value in field A. -/
def Instr.withA (i : Instr) (a : Nat) : Instr :=
  match i with
  | .loadConst _ b c => .loadConst a b c
  | .loadMem _ b c => .loadMem a b c
  | .storeMem _ b c d => .storeMem a b c d
  | .bitwiseOr _ b c d => .bitwiseOr a b c d
  | .add _ b c => .add a b c
  | .xor _ b c => .xor a b c

/-- R64: what of an instruction its execution depends on: the opcode, the cells its address fields name, and the literal
of LOAD_CONST. -/
def Instr.meaningKey : Instr → Opcode × List Nat
  | .loadConst _ b c => (.loadConst, [b % 1024, c])
  | .loadMem _ b c => (.loadMem, [b % 1024, c % 1024])
  | .storeMem _ b c d => (.storeMem, [b % 1024, c % 1024, d % 1024])
  | .bitwiseOr _ b c d => (.bitwiseOr, [b % 1024, c % 1024, d % 1024])
  | .add _ b c => (.add, [b % 1024, c % 1024])
  | .xor _ b c => (.xor, [b % 1024, c % 1024])

end Sys2Proof
end

