-- ==== Sys2Proof/Certificates/Slice0/Obligations.lean ====
section
/-! DEFINITION. The statements for the provers, from the numbered rules of spec/. Each docstring names the rule it
formalises, and the decision D<n> of 92_eei_decisions.md where the rule rests on one. -/

open Sys2Proof Sys2Proof.Machine

/-! ## The codec -/

/-- R87 (the spec's own derivation): the decoder undoes the encoder on every instruction whose fields fit, every value of
field A included, and takes exactly nine bytes off a longer stream. -/
def Obligations.DecodeOfEncodeIsIdentity : Prop :=
  ∀ i : Instr, i.wf = true → ∃ w, encode i = .ok w ∧ decodeWord w = .ok i ∧
    ∀ rest : List Byte, decodeBytes (bytesOfWord w ++ rest) = .ok (i, rest)

/-- R89 (the spec's own derivation): re-encoding a decoded word always succeeds and gives the word with its pad bits
cleared, so the word itself exactly when its pad bits are 0. -/
def Obligations.EncodeOfDecodeClearsPad : Prop :=
  ∀ (w : Word) (i : Instr), decodeWord w = .ok i → i.wf = true ∧
    encode i = .ok (clearPad i.opcode.format w) ∧
    (encode i = .ok w ↔ w.toNat % 2 ^ (if i.opcode.format = .f4 then 4 else 24) = 0)

/-- R82 (D5, D13), in every `ENC_A_MODE` (R88): each field in the order A, B, C, D is accepted up to its largest value,
and the first one above it is named in the RangeError. -/
def Obligations.PackRefusesFirstBadField : Prop :=
  ∀ (mode : EncAMode) (o : Opcode) (a b c d : Nat),
    (63 < a → pack mode o.num a b c d = .error (.rangeError .a a)) ∧
    (a ≤ 63 → 1048575 < b → pack mode o.num a b c d = .error (.rangeError .b b)) ∧
    (a ≤ 63 → b ≤ 1048575 → 65535 < c → pack mode o.num a b c d = .error (.rangeError .c c)) ∧
    (a ≤ 63 → b ≤ 1048575 → c ≤ 65535 → o.format = .f4 → 1048575 < d →
      pack mode o.num a b c d = .error (.rangeError .d d)) ∧
    (a ≤ 63 → b ≤ 1048575 → c ≤ 65535 → (o.format = .f4 → d ≤ 1048575) → ∃ w, pack mode o.num a b c d = .ok w)

/-- R81 (D11): an opcode above 5 is refused before any field is looked at. -/
def Obligations.PackRefusesUnknownOpcode : Prop :=
  ∀ (mode : EncAMode) (op a b c d : Nat), 5 < op → pack mode op a b c d = .error (.unknownOpcode op)

/-- R84 (D20): for a three-operand opcode PACK neither checks nor writes D; the Assembler refuses a fourth operand (R72,
D16). That it names the fourth operand also where PACK would refuse another value is the model's choice (log 9: the
operands are counted before PACK runs). -/
def Obligations.PackIgnoresDForThreeOperands : Prop :=
  ∀ (mode : EncAMode) (o : Opcode) (a b c d d' : Nat), o.format = .f3 →
    pack mode o.num a b c d = pack mode o.num a b c d' ∧ packLine o [a, b, c, d] = .error .surplusOperands

/-- R88: in the two aliasing modes A's own position reads back 0, the opcode bits are those of the mode's construction,
and for A = 0 the word is the word of the separate mode. -/
def Obligations.AliasModesPlaceFieldA : Prop :=
  ∀ (o : Opcode) (a b c d : Nat), a ≤ 63 → b ≤ 1048575 → c ≤ 65535 → d ≤ 1048575 →
    (∃ w, pack .aliasOr o.num a b c d = .ok w ∧ (unpack w).1.toNat = o.num ||| a ∧ w.toNat / 2 ^ 60 % 64 = 0) ∧
    (∃ w, pack .aliasReplace o.num a b c d = .ok w ∧ (unpack w).1.toNat = (if a = 0 then o.num else a) ∧
      w.toNat / 2 ^ 60 % 64 = 0) ∧
    (a = 0 → ∀ mode, pack mode o.num a b c d = pack .separate o.num a b c d)

/-- R51 (D1): the nine bytes of a word, most significant first, the word of nine bytes, and the place of each source
bit. -/
def Obligations.WordBytesAreBigEndian : Prop :=
  (∀ w : Word, (bytesOfWord w).length = 9 ∧
    (∀ k < 9, ∃ b, (bytesOfWord w)[k]? = some b ∧ b.toNat = w.toNat / 2 ^ (64 - 8 * k) % 2 ^ 8) ∧
    (∀ i < 72, ∃ b, (bytesOfWord w)[i / 8]? = some b ∧ b.getLsbD (7 - i % 8) = w.getLsbD (71 - i))) ∧
  ∀ b0 b1 b2 b3 b4 b5 b6 b7 b8 : Byte,
    (wordOfBytes [b0, b1, b2, b3, b4, b5, b6, b7, b8]).toNat =
      b0.toNat * 2 ^ 64 + b1.toNat * 2 ^ 56 + b2.toNat * 2 ^ 48 + b3.toNat * 2 ^ 40 + b4.toNat * 2 ^ 32 +
      b5.toNat * 2 ^ 24 + b6.toNat * 2 ^ 16 + b7.toNat * 2 ^ 8 + b8.toNat

/-- R53, R57, R58 (D2, D3): what the decoder reads off nine bytes, byte by byte: the opcode is the upper six bits of the
first, and each field is where the byte table puts it. -/
def Obligations.DecoderReadsByteTable : Prop :=
  ∀ (b0 b1 b2 b3 b4 b5 b6 b7 b8 : Byte) (rest : List Byte),
    let op := b0.toNat / 4
    let a := b0.toNat % 4 * 16 + b1.toNat / 16
    let b := b1.toNat % 16 * 65536 + b2.toNat * 256 + b3.toNat
    let c := b4.toNat * 256 + b5.toNat
    let d := b6.toNat * 4096 + b7.toNat * 16 + b8.toNat / 16
    let answer := decodeBytes ([b0, b1, b2, b3, b4, b5, b6, b7, b8] ++ rest)
    (op = 0 → answer = .ok (.loadConst a b c, rest)) ∧ (op = 1 → answer = .ok (.loadMem a b c, rest)) ∧
    (op = 2 → answer = .ok (.storeMem a b c d, rest)) ∧ (op = 3 → answer = .ok (.bitwiseOr a b c d, rest)) ∧
    (op = 4 → answer = .ok (.add a b c, rest)) ∧ (op = 5 → answer = .ok (.xor a b c, rest)) ∧
    (5 < op → answer = .error (.unknownOpcode op))

/-- R65 (the spec's own derivation): every word decodes to exactly one of seven outcomes, told apart by its opcode. -/
def Obligations.DecodingIsTotalByOpcode : Prop :=
  ∀ w : Word,
    (w.toNat / 2 ^ 66 ≤ 5 → ∃ i, decodeWord w = .ok i ∧ i.opcode.num = w.toNat / 2 ^ 66) ∧
    (5 < w.toNat / 2 ^ 66 → decodeWord w = .error (.unknownOpcode (w.toNat / 2 ^ 66)))

/-- R85: UNPACK answers `w[71:66]` and `w[65:0]` of every word, whether or not the opcode is valid. -/
def Obligations.UnpackSplitsEveryWord : Prop :=
  ∀ w : Word, (unpack w).1.toNat = w.toNat / 2 ^ 66 ∧ (unpack w).2.toNat = w.toNat % 2 ^ 66

/-- 95_test_vectors.md 2.1: one word of each instruction, and an invalid opcode, decode as the spec's table says. -/
def Obligations.SpecVectorsDecode : Prop :=
  decodeWord 0x03FFFFFFFFFF000000#72 = .ok (.loadConst 63 1048575 65535) ∧
  decodeWord 0x055ABCDE1234000000#72 = .ok (.loadMem 0x15 0xABCDE 0x1234) ∧
  decodeWord 0x0800001E000A00014F#72 = .ok (.storeMem 0 30 10 20) ∧
  decodeWord 0x0EA12345BEEFFEDCB0#72 = .ok (.bitwiseOr 0x2A 0x12345 0xBEEF 0xFEDCB) ∧
  decodeWord 0x1000000A0014ABCDEF#72 = .ok (.add 0 10 20) ∧
  decodeWord 0x141000020003000000#72 = .ok (.xor 1 2 3) ∧
  decodeWord 0x180000000000000000#72 = .error (.unknownOpcode 6)

/-- R64, its 'if' half (the spec's own derivation; R56, R61, R62): two words with the same opcode, the same cells and, for
LOAD_CONST, the same literal execute identically, whatever their A, pad bits and upper address bits. -/
def Obligations.SameCellsExecuteAlike : Prop :=
  ∀ (w v : Word) (i j : Instr), decodeWord w = .ok i → decodeWord v = .ok j → i.meaningKey = j.meaningKey →
    ∀ s : State, exec i s = exec j s

/-- The 'only if' half of R64 in the reading that 'execute identically' means 'have the same outcome in every state',
expected to FAIL: ADD A B C and STORE_MEM A B B C have the same outcome by R130 and R140, and STORE_MEM with C and D swapped
does by the spec's own corner case (5) of R130 (log 12). The half holds in the reading of SameOperationIffSameOpcodeAndCells. -/
def Obligations.OnlySameCellsExecuteAlike : Prop :=
  ∀ i j : Instr, i.wf = true → j.wf = true → (∀ s : State, exec i s = exec j s) → i.meaningKey = j.meaningKey

/-- R64 (the spec's own derivation), both halves, in the reading that the spec's other rules allow (log 12): two words
execute identically when executing them carries out the same operation, the same arm of the dispatch table on the same
values. First: they do if and only if their opcodes are the same, and `idx(B)`, and `idx(C)` (for LOAD_CONST the full C),
and, for F4, `idx(D)`, all read off the words by the places of R53. Second: to execute an instruction is to carry out its
operation. Third: PACK writes the caller's field values as they are, with no reduction and no clearing. -/
def Obligations.SameOperationIffSameOpcodeAndCells : Prop :=
  (∀ w v : Word, w.toNat / 2 ^ 66 ≤ 5 → v.toNat / 2 ^ 66 ≤ 5 →
    ((∃ o, Operation.ofWord w = .ok o ∧ Operation.ofWord v = .ok o) ↔
      w.toNat / 2 ^ 66 = v.toNat / 2 ^ 66 ∧ w.toNat / 2 ^ 40 % 1024 = v.toNat / 2 ^ 40 % 1024 ∧
      w.toNat / 2 ^ 24 % (if w.toNat / 2 ^ 66 = 0 then 65536 else 1024) =
        v.toNat / 2 ^ 24 % (if w.toNat / 2 ^ 66 = 0 then 65536 else 1024) ∧
      (w.toNat / 2 ^ 66 = 2 ∨ w.toNat / 2 ^ 66 = 3 → w.toNat / 2 ^ 4 % 1024 = v.toNat / 2 ^ 4 % 1024))) ∧
  (∀ (i : Instr) (s : State), exec i s =
    .next { s with mem := (Operation.ofInstr i).effect s.mem, pc := s.pc + 1 }) ∧
  ∀ (o : Opcode) (a b c d : Nat) (w : Word), pack Config.encAMode o.num a b c d = .ok w →
    w.toNat / 2 ^ 60 % 64 = a ∧ w.toNat / 2 ^ 40 % 1048576 = b ∧ w.toNat / 2 ^ 24 % 65536 = c ∧
    (o.format = .f4 → w.toNat / 2 ^ 4 % 1048576 = d)

/-! ## The six instructions: what each does, what it leaves alone, and its encoding -/

/-- R120 (D7): LOAD_CONST writes the unreduced literal to cell `idx(B)` and changes nothing else but `pc`. -/
def Obligations.LoadConstWritesLiteral : Prop :=
  ∀ (a b c : Nat) (s : State),
    (∃ t, exec (.loadConst a b c) s = .next t ∧ t.memRead (idx b) = c ∧
      (∀ k, k ≠ idx b → t.memRead k = s.memRead k) ∧ t.pc = s.pc + 1 ∧ t.errlog = s.errlog ∧ t.stream = s.stream) ∧
    ∀ w, encode (.loadConst a b c) = .ok w ↔
      a ≤ 63 ∧ b ≤ 1048575 ∧ c ≤ 65535 ∧ w.toNat = 0 * 2 ^ 66 + a * 2 ^ 60 + b * 2 ^ 40 + c * 2 ^ 24

/-- R121: LOAD_MEM copies cell `idx(C)` whole to cell `idx(B)` and changes nothing else but `pc`. -/
def Obligations.LoadMemCopiesCell : Prop :=
  ∀ (a b c : Nat) (s : State),
    (∃ t, exec (.loadMem a b c) s = .next t ∧ t.memRead (idx b) = s.memRead (idx c) ∧
      (∀ k, k ≠ idx b → t.memRead k = s.memRead k) ∧ t.pc = s.pc + 1 ∧ t.errlog = s.errlog ∧ t.stream = s.stream) ∧
    ∀ w, encode (.loadMem a b c) = .ok w ↔
      a ≤ 63 ∧ b ≤ 1048575 ∧ c ≤ 65535 ∧ w.toNat = 1 * 2 ^ 66 + a * 2 ^ 60 + b * 2 ^ 40 + c * 2 ^ 24

/-- R130 (D8, D14): STORE_MEM writes the exact sum of the old cells `idx(C)` and `idx(D)` to cell `idx(B)` and changes
nothing else but `pc`. -/
def Obligations.StoreMemWritesSum : Prop :=
  ∀ (a b c d : Nat) (s : State),
    (∃ t, exec (.storeMem a b c d) s = .next t ∧ t.memRead (idx b) = s.memRead (idx c) + s.memRead (idx d) ∧
      (∀ k, k ≠ idx b → t.memRead k = s.memRead k) ∧ t.pc = s.pc + 1 ∧ t.errlog = s.errlog ∧ t.stream = s.stream) ∧
    ∀ w, encode (.storeMem a b c d) = .ok w ↔ a ≤ 63 ∧ b ≤ 1048575 ∧ c ≤ 65535 ∧ d ≤ 1048575 ∧
      w.toNat = 2 * 2 ^ 66 + a * 2 ^ 60 + b * 2 ^ 40 + c * 2 ^ 24 + d * 2 ^ 4

/-- R131 (D14): BITWISE_OR writes to cell `idx(B)` the number whose every binary digit is the OR of the digits of the old
cells `idx(C)` and `idx(D)`, and changes nothing else but `pc`. -/
def Obligations.BitwiseOrWritesDigitwiseOr : Prop :=
  ∀ (a b c d : Nat) (s : State),
    (∃ t, exec (.bitwiseOr a b c d) s = .next t ∧
      (∀ n, (t.memRead (idx b)).testBit n = ((s.memRead (idx c)).testBit n || (s.memRead (idx d)).testBit n)) ∧
      (∀ k, k ≠ idx b → t.memRead k = s.memRead k) ∧ t.pc = s.pc + 1 ∧ t.errlog = s.errlog ∧ t.stream = s.stream) ∧
    ∀ w, encode (.bitwiseOr a b c d) = .ok w ↔ a ≤ 63 ∧ b ≤ 1048575 ∧ c ≤ 65535 ∧ d ≤ 1048575 ∧
      w.toNat = 3 * 2 ^ 66 + a * 2 ^ 60 + b * 2 ^ 40 + c * 2 ^ 24 + d * 2 ^ 4

/-- R140 (D8, D14): ADD writes the exact sum of the old cells `idx(B)` and `idx(C)` to cell `idx(B)` and changes nothing
else but `pc`. -/
def Obligations.AddAccumulatesSum : Prop :=
  ∀ (a b c : Nat) (s : State),
    (∃ t, exec (.add a b c) s = .next t ∧ t.memRead (idx b) = s.memRead (idx b) + s.memRead (idx c) ∧
      (∀ k, k ≠ idx b → t.memRead k = s.memRead k) ∧ t.pc = s.pc + 1 ∧ t.errlog = s.errlog ∧ t.stream = s.stream) ∧
    ∀ w, encode (.add a b c) = .ok w ↔
      a ≤ 63 ∧ b ≤ 1048575 ∧ c ≤ 65535 ∧ w.toNat = 4 * 2 ^ 66 + a * 2 ^ 60 + b * 2 ^ 40 + c * 2 ^ 24

/-- R141 (D14): XOR writes to cell `idx(B)` the number whose every binary digit is 1 when exactly one of the digits of the
old cells `idx(B)` and `idx(C)` is, and changes nothing else but `pc`. -/
def Obligations.XorAccumulatesDigitwiseXor : Prop :=
  ∀ (a b c : Nat) (s : State),
    (∃ t, exec (.xor a b c) s = .next t ∧
      (∀ n, (t.memRead (idx b)).testBit n = ((s.memRead (idx b)).testBit n ^^ (s.memRead (idx c)).testBit n)) ∧
      (∀ k, k ≠ idx b → t.memRead k = s.memRead k) ∧ t.pc = s.pc + 1 ∧ t.errlog = s.errlog ∧ t.stream = s.stream) ∧
    ∀ w, encode (.xor a b c) = .ok w ↔
      a ≤ 63 ∧ b ≤ 1048575 ∧ c ≤ 65535 ∧ w.toNat = 5 * 2 ^ 66 + a * 2 ^ 60 + b * 2 ^ 40 + c * 2 ^ 24

/-- R105, R157 (the latter the spec's own derivation), R22: every instruction, on every operand and state, completes, and
writes no cell but `idx(B)`, no error record and no byte of the stream. -/
def Obligations.EveryInstructionWritesOneCell : Prop :=
  ∀ (i : Instr) (s : State), ∃ t, exec i s = .next t ∧
    (∀ k, k ≠ idx i.dest → t.memRead k = s.memRead k) ∧ (s.mem.wf → t.mem.wf) ∧
    t.pc = s.pc + 1 ∧ t.errlog = s.errlog ∧ t.stream = s.stream

/-- R61: no value of field A changes what an instruction does, and the encoder range-checks A like any other field. -/
def Obligations.FieldAIsNeverConsulted : Prop :=
  (∀ (i : Instr) (a : Nat) (s : State), exec (i.withA a) s = exec i s) ∧
  ∀ (i : Instr) (a : Nat), i.wf = true → ((∃ w, encode (i.withA a) = .ok w) ↔ a ≤ 63)

/-- R32: the indexer takes the low ten bits, and the effective address of every address operand is that operand modulo
1024; an operand below 1024 is its own. -/
def Obligations.AddressesWrapModulo1024 : Prop :=
  (∀ v, (idx v).val = v % 1024 ∧ (idx v).val = v &&& 1023 ∧ (v < 1024 → (idx v).val = v)) ∧
  ∀ (a b c d : Nat) (s : State),
    exec (.loadConst a b c) s = exec (.loadConst a (b % 1024) c) s ∧
    exec (.loadMem a b c) s = exec (.loadMem a (b % 1024) (c % 1024)) s ∧
    exec (.storeMem a b c d) s = exec (.storeMem a (b % 1024) (c % 1024) (d % 1024)) s ∧
    exec (.bitwiseOr a b c d) s = exec (.bitwiseOr a (b % 1024) (c % 1024) (d % 1024)) s ∧
    exec (.add a b c) s = exec (.add a (b % 1024) (c % 1024)) s ∧
    exec (.xor a b c) s = exec (.xor a (b % 1024) (c % 1024)) s

/-- R41 (D14), corner cases of R130, R131, R140, R141: a destination that is also every source is read before it is
written: sums double it, OR keeps it, XOR clears it. -/
def Obligations.DestinationAsSourceReadsOldValue : Prop :=
  ∀ (a b c d : Nat) (s : State), idx c = idx b → idx d = idx b →
    (∃ t, exec (.storeMem a b c d) s = .next t ∧ t.memRead (idx b) = 2 * s.memRead (idx b)) ∧
    (∃ t, exec (.bitwiseOr a b c d) s = .next t ∧ t.memRead (idx b) = s.memRead (idx b)) ∧
    (∃ t, exec (.add a b c) s = .next t ∧ t.memRead (idx b) = 2 * s.memRead (idx b)) ∧
    (∃ t, exec (.xor a b c) s = .next t ∧ t.memRead (idx b) = 0)

/-- R44 (the spec's own derivation) and corner case 1 of R121: a LOAD_MEM whose two addresses name one cell leaves Memory as it
was. -/
def Obligations.SelfCopyChangesNoMemory : Prop :=
  ∀ (a b c : Nat) (s : State), s.mem.wf → idx b = idx c → exec (.loadMem a b c) s = .next { s with pc := s.pc + 1 }

/-- Corner case 3 of R141: the same XOR twice restores Memory, if the second source is not the destination. -/
def Obligations.XorTwiceRestoresMemory : Prop :=
  ∀ (a b c : Nat) (s : State), s.mem.wf → idx b ≠ idx c →
    ∃ t, exec (.xor a b c) s = .next t ∧ exec (.xor a b c) t = .next { s with pc := s.pc + 2 }

/-- Corner case 4 of R131: the OR is at least each source, at most their sum, and below every power of two that both
sources are below. -/
def Obligations.BitwiseOrLiesBetweenBounds : Prop :=
  ∀ (a b c d : Nat) (s : State), ∃ t, exec (.bitwiseOr a b c d) s = .next t ∧
    max (s.memRead (idx c)) (s.memRead (idx d)) ≤ t.memRead (idx b) ∧
    t.memRead (idx b) ≤ s.memRead (idx c) + s.memRead (idx d) ∧
    ∀ n, s.memRead (idx c) < 2 ^ n → s.memRead (idx d) < 2 ^ n → t.memRead (idx b) < 2 ^ n

/-- Corner case 5 of R130 and 6 of R131: the two sources may be swapped. -/
def Obligations.SourcesCommute : Prop :=
  ∀ (a b c d : Nat) (s : State), exec (.storeMem a b c d) s = exec (.storeMem a b d c) s ∧
    exec (.bitwiseOr a b c d) s = exec (.bitwiseOr a b d c) s

/-- R24 (the spec's own derivation), as an invariant of one step from any state: only a word whose opcode is ADD or
STORE_MEM can take cells past the next power of two, and then by one bit. -/
def Obligations.CellBoundGrowsOneBitPerAdd : Prop :=
  ∀ (s t : State) (n : Nat), 16 ≤ n → (∀ k, s.memRead k < 2 ^ n) → step s = .next t →
    ((∀ k, t.memRead k < 2 ^ n) ∨
      ((∃ i, decodeWord (s.fetch s.stream) = .ok i ∧ i.adds = true) ∧ ∀ k, t.memRead k < 2 ^ (n + 1)))

/-! ## The run loop -/

/-- R101: with the bytes of a word at stream positions 9·pc to 9·pc + 8, a step is exactly the execution of the
instruction that word decodes to; the step adds nothing (the advance of R107 is part of the meaning). -/
def Obligations.StepRunsDecodedInstruction : Prop :=
  ∀ (s : State) (pre post : List Byte) (w : Word) (i : Instr),
    s.stream = pre ++ bytesOfWord w ++ post → pre.length = 9 * s.pc → decodeWord w = .ok i → step s = exec i s

/-- R104, R154 (D12 for the record's form): a word whose opcode is in 6..63 is reported with its slot and opcode and
skipped; Memory is unchanged, `pc` moves by one, and the other 66 bits do not matter. -/
def Obligations.StepSkipsUnknownOpcode : Prop :=
  ∀ (s : State) (pre post : List Byte) (w : Word),
    s.stream = pre ++ bytesOfWord w ++ post → pre.length = 9 * s.pc → 5 < w.toNat / 2 ^ 66 →
    step s = .next { s with
      errlog := s.errlog ++ [{ slot := s.pc, kind := .unknownOpcode, info := w.toNat / 2 ^ 66 }], pc := s.pc + 1 }

/-- R155 and R106 (D10): after the last complete block the `r = len mod 9` bytes that are left, 1 to 8 of them, are
reported once with `slot = nwords`, and the run is then over. That a step of its own makes the report, and that 'not yet
made' is read off the error log, is the model's choice (log 3): the spec makes it in RUN, after the loop. -/
def Obligations.TrailingBytesReportedOnce : Prop :=
  ∀ s : State, s.pc = s.stream.length / 9 → s.stream.length % 9 ≠ 0 → (∀ r ∈ s.errlog, r.kind ≠ .truncatedWord) →
    ∃ t, step s = .next t ∧ t.over t.stream = true ∧ t.mem = s.mem ∧ t.pc = s.pc ∧ t.stream = s.stream ∧
      t.errlog = s.errlog ++ [{ slot := s.stream.length / 9, kind := .truncatedWord, info := s.stream.length % 9 }]

/-- The model's choice (log 2): once the run is over (R19, R108) a further step changes nothing. -/
def Obligations.StepAfterTheRunChangesNothing : Prop := ∀ s : State, s.over s.stream = true → step s = .next s

/-- Every step completes (R112, R172, the spec's own derivations) and leaves the stream as it was (R43); while a block is
left `pc` moves by exactly one (R107). That a step after the last block completes and keeps `pc` and Memory is the model's
choice: the spec has no such step (log 2), or makes the report on the trailing bytes after the loop (log 3). -/
def Obligations.EveryStepConsumesOneSlot : Prop :=
  ∀ s : State, ∃ t, step s = .next t ∧ t.stream = s.stream ∧
    (s.pc < s.stream.length / 9 → t.pc = s.pc + 1) ∧
    (s.stream.length / 9 ≤ s.pc → t.pc = s.pc ∧ t.mem = s.mem)

/-- R15: records are never removed or changed; a step appends at most one, and its slot is the `pc` at which it was
raised. -/
def Obligations.ErrlogOnlyGrows : Prop :=
  ∀ s t : State, step s = .next t → ∃ l, t.errlog = s.errlog ++ l ∧ l.length ≤ 1 ∧ ∀ r ∈ l, r.slot = s.pc

/-- R15, R153, R13: what a step makes of Memory depends on Memory and the fetched word alone, not on the error log, the
slot number or the rest of the stream. -/
def Obligations.NextMemoryDependsOnWordAlone : Prop :=
  ∀ s u : State, s.mem = u.mem → s.fetch s.stream = u.fetch u.stream → s.pc < s.stream.length / 9 → u.pc < u.stream.length / 9 →
    ∃ s' u', step s = .next s' ∧ step u = .next u' ∧ s'.mem = u'.mem

/-- R180: after reset, and so at the start of every run, every cell is 0, `pc` is 0 and `errlog` is empty. -/
def Obligations.ResetClearsEverything : Prop :=
  (∀ k, State.reset.memRead k = 0) ∧ State.reset.pc = 0 ∧ State.reset.errlog = [] ∧
  ∀ stream : List Byte, (∀ k, (State.load stream).memRead k = 0) ∧ (State.load stream).pc = 0 ∧
    (State.load stream).errlog = [] ∧ (State.load stream).stream = stream

/-- R23 (the spec's own derivation): the invariant holds at reset and at the start of the run of every stream. -/
def Obligations.ResetMeetsRunInvariant : Prop := State.reset.Inv ∧ ∀ stream : List Byte, (State.load stream).Inv

/-- R23 (the spec's own derivation): from every state that meets the invariant, a step answers a state that meets it:
Memory stays canonical, `pc` stays at most `nwords`, and the error log stays in strictly rising slot order with each
record true of the state. -/
def Obligations.StepKeepsRunInvariant : Prop := ∀ s t : State, s.Inv → step s = .next t → t.Inv

/-- R23 points 4 and 5 (the spec's own derivation): in a state that meets the invariant the log has at most `pc + 1`
records, and only the last can be a TruncatedWord. -/
def Obligations.ErrlogIsBoundedBySlots : Prop :=
  ∀ s : State, s.Inv → s.errlog.length ≤ s.pc + 1 ∧
    ∀ l r l', s.errlog = l ++ r :: l' → r.kind = .truncatedWord → l' = []

/-- R110: the snapshot is cells 0 to 255 in order, answered when the run is over, with the error reports (R156), whether
or not there are any; and not before. -/
def Obligations.SnapshotIsFirst256Cells : Prop :=
  ∀ s : State, (s.over s.stream = false → s.result s.stream = none) ∧
    (s.over s.stream = true → ∃ r, s.result s.stream = some r ∧ r.errlog = s.errlog ∧ r.snapshot.length = 256 ∧
      ∀ k < 256, r.snapshot[k]? = some (s.memRead (idx k)))

/-- R111 (the spec's own derivation): on every stream, RUN, which steps the machine once for each block and then makes the
check on the tail, ends with the `(mem, errlog)` of the fold over the stream's blocks, all 1024 cells included, and so
answers the same snapshot and error log. -/
def Obligations.RunEqualsFoldOverBlocks : Prop :=
  ∀ stream : List Byte, (∃ v, finalOf stream = some v ∧ (v.mem, v.errlog) = foldFinal stream) ∧
    run stream = some (foldRun stream)

/-- R18, R31, R43: the stream is an argument of the run and no state. What an instruction does to the machine's state does
not depend on it, and the host's step on the wrapped state is the step of the machine's state at that argument, the
argument handed on as it is (log 1). -/
def Obligations.StreamIsOnlyTheRunsArgument : Prop :=
  (∀ (i : Instr) (v : VmState) (bs bs' : List Byte), ∃ v', exec i { vm := v, stream := bs } = .next { vm := v', stream := bs } ∧
    exec i { vm := v, stream := bs' } = .next { vm := v', stream := bs' }) ∧
  ∀ (stream : List Byte) (v : VmState), ∃ v', stepOf stream v = .next v' ∧
    step { vm := v, stream := stream } = .next { vm := v', stream := stream }

/-- R100 beside the host's interface: the host's run from the start of the run of a stream, with any number of steps above
the number of its words, ends in the state in which RUN ends: the run is over there, and the answer is that of RUN. The one step more than
R112 counts is the model's choice (log 3), and so is that further steps change nothing (log 2). -/
def Obligations.HostRunAnswersRun : Prop :=
  ∀ (stream : List Byte) (n : Nat), stream.length / 9 < n →
    ∃ s, Host.Core.run Sys2Proof.core n (State.load stream) = .next s ∧ s.stream = stream ∧ s.over stream = true ∧
      finalOf stream = some s.vm ∧ s.result stream = run stream

/-- R112 (the spec's own derivation): after k steps of the run of a stream, for every k up to the number of its words,
exactly k words are consumed, and after all of them no block is left. -/
def Obligations.RunTakesOneStepPerWord : Prop :=
  ∀ (stream : List Byte) (k : Nat), k ≤ stream.length / 9 →
    ∃ s, Host.Core.run Sys2Proof.core k (State.load stream) = .next s ∧ s.pc = k ∧ s.stream = stream ∧
      (k = stream.length / 9 → stream.length % 9 = 0 → s.over stream = true)

/-- R109 (D21): the empty stream is accepted: no step is taken, the snapshot is 256 zeros and the log is empty. -/
def Obligations.EmptyStreamIsAccepted : Prop :=
  (State.load []).over [] = true ∧ run [] = some { snapshot := List.replicate 256 0, errlog := [] }

/-! ## The source-text form -/

/-- R71, R74: a successful assembly has one log entry for each instruction line, in source order: the opcode its first
token names, the values of its other tokens in order, as many as the format has fields, and the word PACK makes of them;
the stream is the nine bytes of each entry's word, in order. And a text all of whose instruction lines have such an entry
does assemble. -/
def Obligations.AssembledStreamIsTheLogsWords : Prop :=
  (∀ (text : List Char) (bs : List Byte) (log : List LogEntry), assemble text = .ok (bs, log) →
    List.Forall₂ LineNames ((linesOf text).filter isInstructionLine) log ∧
    bs = (log.flatMap fun x => bytesOfWord x.word) ∧ bs.length = 9 * ((linesOf text).filter isInstructionLine).length) ∧
  ∀ text : List Char, (∀ line ∈ (linesOf text).filter isInstructionLine, ∃ x, LineNames line x) →
    ∃ bs log, assemble text = .ok (bs, log)

/-- R71, and the encoder: an instruction written on one line, its mnemonic and then its operands in the order A, B, C, D,
each in any spelling of its value, assembles to the nine bytes of its word and to one log entry. -/
def Obligations.InstructionTextAssemblesToItsWord : Prop :=
  ∀ (i : Instr) (m : List Char) (ts : List (List Char)), i.wf = true → lookupMnemonic m = some i.opcode →
    List.Forall₂ (fun t v => parseOperand t = some v) ts i.operands →
    ∃ w, encode i = .ok w ∧ assemble (m ++ ts.flatMap fun t => ' ' :: t) =
      .ok (bytesOfWord w, [{ op := i.opcode, fields := i.operands, word := w }])

/-- R66, R68: a text is cut into lines at each line feed and nowhere else; a line is cut into tokens at whitespace, leading,
trailing and repeated whitespace being ignored. Which characters are line ends and whitespace is the model's choice
(log 9), written out in the last clause. -/
def Obligations.LinesAndTokensSplitTheText : Prop :=
  (∀ line rest : List Char, '\n' ∉ line → linesOf line = [line] ∧ linesOf (line ++ '\n' :: rest) = line :: linesOf rest) ∧
  (∀ blanks line : List Char, (∀ c ∈ blanks, isSpaceChar c = true) →
    tokensOf blanks = [] ∧ tokensOf (blanks ++ line) = tokensOf line) ∧
  (∀ (t rest : List Char) (c : Char), t ≠ [] → (∀ x ∈ t, isSpaceChar x = false) → isSpaceChar c = true →
    tokensOf t = [t] ∧ tokensOf (t ++ c :: rest) = t :: tokensOf rest) ∧
  ∀ c : Char, isSpaceChar c = true ↔
    c = ' ' ∨ c = '\t' ∨ c = '\n' ∨ c = Char.ofNat 11 ∨ c = Char.ofNat 12 ∨ c = '\r'

/-- R151 at the Assembler, R152 and R74: a line whose values PACK refuses is answered by PACK's error and leaves the whole
text without a stream; and the only error of PACK that ever comes out of the Assembler is a RangeError, of the RangeError
class: PACK's UnknownOpcode is not reached (so log 16's choice of a class for it shows nowhere). -/
def Obligations.OutOfRangeOperandAborts : Prop :=
  (∀ (text line m : List Char) (ts : List (List Char)) (o : Opcode) (vs : List Nat) (e : PackError),
    line ∈ linesOf text → tokensOf line = m :: ts → m.head? ≠ some '#' → lookupMnemonic m = some o →
    List.Forall₂ (fun t v => parseOperand t = some v) ts vs →
    vs.length = (if o = .storeMem ∨ o = .bitwiseOr then 4 else 3) →
    pack Config.encAMode o.num (vs.getD 0 0) (vs.getD 1 0) (vs.getD 2 0) (vs.getD 3 0) = .error e →
    assembleLine Config.commentMark line = .error (.packError e) ∧ ∃ e', assemble text = .error e') ∧
  ∀ (text : List Char) (e : PackError), assemble text = .error (.packError e) →
    ∃ f x, e = .rangeError f x ∧ (AsmError.packError e).cls = .rangeError

/-- R73 and the all-or-nothing sentence of R74: a line whose first token is neither comment-marked nor in the catalog is
an unknown mnemonic, an error of the SyntaxError class; a line in error with no line in error before it makes that error the
answer for the whole text; and any line in error leaves the text without a stream. That an unknown mnemonic is named before
anything else in its line, and the first of several bad lines before the others, is the model's choice (log 9). -/
def Obligations.BadLineAbortsAssembly : Prop :=
  (∀ (line m : List Char) (ts : List (List Char)), tokensOf line = m :: ts → m.head? ≠ some Config.commentMark →
    lookupMnemonic m = none → assembleLine Config.commentMark line = .error (.unknownMnemonic m) ∧
      (AsmError.unknownMnemonic m).cls = .syntaxError) ∧
  (∀ (text line : List Char) (earlier later : List (List Char)) (e : AsmError),
    linesOf text = earlier ++ line :: later →
    (∀ l ∈ earlier, ∃ x, assembleLine Config.commentMark l = .ok x) →
    assembleLine Config.commentMark line = .error e → assemble text = .error e) ∧
  ∀ (text line : List Char) (e : AsmError), line ∈ linesOf text →
    assembleLine Config.commentMark line = .error e → ∃ e', assemble text = .error e'

/-- R72 (D16): a line with fewer operands than the format has fields, three in F3 and four in F4, is an error, so is one
with a surplus operand, both of the SyntaxError class, and either leaves the whole text without a stream. That a line
which has a surplus operand and also a value PACK would refuse is answered by the surplus operand is the model's choice
(log 9: the operands are counted before PACK runs). -/
def Obligations.OperandCountMustMatchFormat : Prop :=
  (∀ (text line m : List Char) (ts : List (List Char)) (o : Opcode) (vs : List Nat),
    line ∈ linesOf text → tokensOf line = m :: ts → m.head? ≠ some Config.commentMark → lookupMnemonic m = some o →
    parseOperands ts = .ok vs →
    (vs.length < (if o = .storeMem ∨ o = .bitwiseOr then 4 else 3) →
      assembleLine Config.commentMark line = .error .missingOperands ∧ ∃ e, assemble text = .error e) ∧
    ((if o = .storeMem ∨ o = .bitwiseOr then 4 else 3) < vs.length →
      assembleLine Config.commentMark line = .error .surplusOperands ∧ ∃ e, assemble text = .error e)) ∧
  AsmError.missingOperands.cls = .syntaxError ∧ AsmError.surplusOperands.cls = .syntaxError

/-- R69: a token names an opcode exactly when it is that opcode's name, every letter in upper or lower case, the underscore
as it stands, and nothing more or less. That only the letters a to z stand for A to Z is the model's choice (log 9). -/
def Obligations.MnemonicCaseIsNotSignificant : Prop :=
  ∀ token : List Char,
    let inSomeCase := List.Forall₂ (fun c n : Char => c = n ∨ ('A' ≤ n ∧ n ≤ 'Z' ∧ c.toNat = n.toNat + 32)) token
    (lookupMnemonic token = some .loadConst ↔ inSomeCase ['L', 'O', 'A', 'D', '_', 'C', 'O', 'N', 'S', 'T']) ∧
    (lookupMnemonic token = some .loadMem ↔ inSomeCase ['L', 'O', 'A', 'D', '_', 'M', 'E', 'M']) ∧
    (lookupMnemonic token = some .storeMem ↔ inSomeCase ['S', 'T', 'O', 'R', 'E', '_', 'M', 'E', 'M']) ∧
    (lookupMnemonic token = some .bitwiseOr ↔ inSomeCase ['B', 'I', 'T', 'W', 'I', 'S', 'E', '_', 'O', 'R']) ∧
    (lookupMnemonic token = some .add ↔ inSomeCase ['A', 'D', 'D']) ∧
    (lookupMnemonic token = some .xor ↔ inSomeCase ['X', 'O', 'R'])

/-- R66, R67 (D15): a line is skipped exactly when it is whitespace alone or its first non-whitespace character is `#`;
anywhere else the mark is part of a token, which is then neither a mnemonic nor an operand. (Which characters are
whitespace: log 9.) -/
def Obligations.CommentAndBlankLinesAreSkipped : Prop :=
  (∀ line : List Char, assembleLine Config.commentMark line = .ok none ↔
    (∀ c ∈ line, isSpaceChar c = true) ∨
    ∃ blanks rest : List Char, line = blanks ++ '#' :: rest ∧ ∀ c ∈ blanks, isSpaceChar c = true) ∧
  ∀ token : List Char, '#' ∈ token → lookupMnemonic token = none ∧ parseOperand token = none

/-- R70 (D17): an operand is one or more of the digits 0 to 9, read in base ten, leading zeros allowed and insignificant;
any other token is malformed: the line is answered by a malformed operand of its own, an error of the SyntaxError class,
and the whole text is left without a stream. That a line which also has too few or too many operands is answered by the
malformed operand is the model's choice (log 9: the operands are read before they are counted). -/
def Obligations.OperandsAreDecimalDigits : Prop :=
  (∀ token : List Char, (∃ v, parseOperand token = some v) ↔ token ≠ [] ∧ ∀ c ∈ token, '0' ≤ c ∧ c ≤ '9') ∧
  (∀ c : Char, '0' ≤ c → c ≤ '9' → parseOperand [c] = some (c.toNat - '0'.toNat)) ∧
  (∀ (token : List Char) (v : Nat) (c : Char), parseOperand token = some v → '0' ≤ c → c ≤ '9' →
    parseOperand (token ++ [c]) = some (10 * v + (c.toNat - '0'.toNat)) ∧ parseOperand ('0' :: token) = some v) ∧
  ∀ (text line m t : List Char) (ts : List (List Char)) (o : Opcode), line ∈ linesOf text → tokensOf line = m :: ts →
    m.head? ≠ some '#' → lookupMnemonic m = some o → t ∈ ts → parseOperand t = none →
    (∃ t' ∈ ts, parseOperand t' = none ∧ assembleLine Config.commentMark line = .error (.malformedOperand t') ∧
      (AsmError.malformedOperand t').cls = .syntaxError) ∧ ∃ e, assemble text = .error e
end

