-- ==== Sys2Proof/Laws/Assembler.lean ====
section
/-! SUPPORT. The source text: one lemma per function of the assembler, saying what it can answer. -/

namespace Sys2Proof.Machine

theorem splitAtChar_ne_nil (p : Char → Bool) (cs : List Char) : splitAtChar p cs ≠ [] := by
  cases cs with
  | nil => simp [splitAtChar]
  | cons c cs =>
    unfold splitAtChar
    split
    · simp
    · split <;> simp

/-- A text without a separator is one piece. -/
theorem splitAtChar_of_forall {p : Char → Bool} {t : List Char} (h : ∀ c ∈ t, p c = false) :
    splitAtChar p t = [t] := by
  induction t with
  | nil => rfl
  | cons c t ih => simp [splitAtChar, h c (by simp), ih fun x hx => h x (by simp [hx])]

/-- A piece ends at the first separator. -/
theorem splitAtChar_append {p : Char → Bool} {t : List Char} (rest : List Char) {c : Char} (h : ∀ x ∈ t, p x = false)
    (hc : p c = true) : splitAtChar p (t ++ c :: rest) = t :: splitAtChar p rest := by
  induction t with
  | nil => simp [splitAtChar, hc]
  | cons x t ih => simp [splitAtChar, h x (by simp), ih fun y hy => h y (by simp [hy])]

/-- The value of a token, its condition written as a proposition. -/
theorem parseOperand_eq (t : List Char) :
    parseOperand t =
      if t ≠ [] ∧ ∀ c ∈ t, 48 ≤ c.toNat ∧ c.toNat ≤ 57 then some (t.foldl (fun n c => n * 10 + (c.toNat - 48)) 0)
      else none := by
  simp [parseOperand]

/-- The operands are read exactly when each token has a value, and then they are those values in order. -/
theorem parseOperands_ok_iff {ts : List (List Char)} {vs : List Nat} :
    parseOperands ts = .ok vs ↔ List.Forall₂ (fun t v => parseOperand t = some v) ts vs := by
  induction ts generalizing vs with
  | nil => cases vs <;> simp [parseOperands]
  | cons t ts ih =>
    unfold parseOperands
    cases ht : parseOperand t with
    | none => cases vs <;> simp [ht]
    | some v =>
      cases hp : parseOperands ts with
      | error e =>
        simp only [Except.map, reduceCtorEq, false_iff]
        rintro (_ | ⟨_, h⟩)
        simp [ih.mpr h] at hp
      | ok us =>
        cases vs with
        | nil => simp [Except.map]
        | cons w ws => simp [Except.map, ht, ← ih, hp]

/-- Reading the operands fails only at a token that has no value. -/
theorem parseOperands_error {ts : List (List Char)} {e : AsmError} (h : parseOperands ts = .error e) :
    ∃ t ∈ ts, parseOperand t = none ∧ e = .malformedOperand t := by
  induction ts with
  | nil => cases h
  | cons t ts ih =>
    unfold parseOperands at h
    cases ht : parseOperand t with
    | none =>
      rw [ht] at h
      cases h
      exact ⟨t, by simp, ht, rfl⟩
    | some v =>
      rw [ht] at h
      cases hp : parseOperands ts with
      | ok us => simp [hp, Except.map] at h
      | error e' =>
        simp only [hp, Except.map] at h
        cases h
        obtain ⟨u, hu, hn, he⟩ := ih hp
        exact ⟨u, by simp [hu], hn, he⟩

/-- A line in error leaves no log, whatever stands in the other lines. -/
theorem assembleLines_error {mark : Char} {ls : List (List Char)} {l : List Char} {e : AsmError} (hl : l ∈ ls)
    (he : assembleLine mark l = .error e) : ∃ e', assembleLines mark ls = .error e' := by
  induction ls with
  | nil => cases hl
  | cons y ls ih =>
    unfold assembleLines
    cases hy : assembleLine mark y with
    | error e => exact ⟨_, rfl⟩
    | ok o =>
      have hne : l ≠ y := by
        rintro rfl
        rw [he] at hy
        cases hy
      obtain ⟨e', h⟩ := ih ((List.mem_cons.mp hl).resolve_left hne)
      cases o <;> simp [h, Except.map]

end Sys2Proof.Machine
end

