-- ==== Sys2Proof/Laws/Codec.lean ====
section
/-! SUPPORT. The codec: the byte form of a word, and the opcode check. -/

namespace Sys2Proof

theorem fits_iff {v n : Nat} : fits v n = true ↔ v ≤ 2 ^ n - 1 := by simp [fits]

/-- Nine bytes and their word are the same data (R51). -/
@[simp] theorem wordOfBytes_bytesOfWord (w : Word) : wordOfBytes (bytesOfWord w) = w := by
  apply BitVec.eq_of_toNat_eq
  simp [wordOfBytes, bytesOfWord, bigEndian, Nat.shiftRight_eq_div_pow]
  omega

@[simp] theorem bytesOfWord_length (w : Word) : (bytesOfWord w).length = 9 := rfl

theorem unpack_opcode_toNat (w : Word) : (unpack w).1.toNat = w.toNat / 2 ^ 66 := by
  simp [unpack, Nat.shiftRight_eq_div_pow]
  omega

theorem unpack_raw_toNat (w : Word) : (unpack w).2.toNat = w.toNat % 2 ^ 66 := by
  simp [unpack]

/-- The opcode check passes exactly on the numbers of R58. -/
theorem Opcode.ofNum?_eq_some {n : Nat} {o : Opcode} : Opcode.ofNum? n = some o ↔ n = o.num := by
  constructor
  · intro h
    unfold Opcode.ofNum? at h
    split at h <;> cases h <;> rfl
  · rintro rfl
    cases o <;> rfl

theorem Opcode.ofNum?_eq_none {n : Nat} : Opcode.ofNum? n = none ↔ 5 < n := by
  constructor
  · intro h
    by_contra hn
    interval_cases n <;> simp [Opcode.ofNum?] at h
  · intro h
    unfold Opcode.ofNum?
    split <;> first | rfl | omega

@[simp] theorem Opcode.ofNum?_num (o : Opcode) : Opcode.ofNum? o.num = some o := Opcode.ofNum?_eq_some.mpr rfl

theorem Opcode.num_le (o : Opcode) : o.num ≤ 5 := by cases o <;> decide

/-- PACK answers a word exactly when every field of the opcode's format fits its width (R82, R84). -/
theorem pack_ok_iff (mode : EncAMode) (o : Opcode) (a b c d : Nat) :
    (∃ w, pack mode o.num a b c d = .ok w) ↔
      a ≤ 63 ∧ b ≤ 1048575 ∧ c ≤ 65535 ∧ (o.format = .f4 → d ≤ 1048575) := by
  by_cases ha : 63 < a
  · simp [pack, ha]
  by_cases hb : 1048575 < b
  · simp [pack, ha, hb]
  by_cases hc : 65535 < c
  · simp [pack, ha, hb, hc]
  by_cases hd : o.format = .f4 ∧ 1048575 < d
  · simp [pack, ha, hb, hc, hd]
  · simp [pack, ha, hb, hc, hd]
    simp at ha hb hc hd
    exact ⟨ha, hb, hc, hd⟩

/-- PACK in the mode the hardware takes, as one equivalence: the words it answers and for which inputs (R82, R83). -/
theorem pack_separate_eq_ok (o : Opcode) (a b c d : Nat) (w : Word) :
    pack .separate o.num a b c d = .ok w ↔
      a ≤ 63 ∧ b ≤ 1048575 ∧ c ≤ 65535 ∧ (o.format = .f4 → d ≤ 1048575) ∧
      w.toNat = o.num * 2 ^ 66 + a * 2 ^ 60 + b * 2 ^ 40 + c * 2 ^ 24 + if o.format = .f4 then d * 2 ^ 4 else 0 := by
  have hn := o.num_le
  have val : ∀ x : Nat, x < 2 ^ 72 → (BitVec.ofNat 72 x = w ↔ w.toNat = x) := fun x hx =>
    ⟨by rintro rfl; simp; omega, fun h => BitVec.eq_of_toNat_eq (by simp; omega)⟩
  by_cases hf : a ≤ 63 ∧ b ≤ 1048575 ∧ c ≤ 65535 ∧ (o.format = .f4 → d ≤ 1048575)
  · obtain ⟨ha, hb, hc, hd⟩ := hf
    have hd4 : (if o.format = .f4 then d * 2 ^ 4 else 0) < 2 ^ 24 := by
      split
      · have := hd ‹_›; omega
      · omega
    have h4 : ¬(o.format = .f4 ∧ 2 ^ Config.dBits - 1 < d) := fun h => by
      have := hd h.1
      simp at h
      omega
    simp only [pack, Opcode.ofNum?_num, if_neg h4]
    rw [if_neg (by simp; omega), if_neg (by simp; omega), if_neg (by simp; omega), Except.ok.injEq]
    simp only [packedNat, decide_eq_true_eq]
    rw [val _ (by omega)]
    tauto
  · have hne : pack .separate o.num a b c d ≠ .ok w := fun h => hf ((pack_ok_iff ..).mp ⟨w, h⟩)
    tauto

/-- DECODE as one equation in the opcode number (R58, R90). -/
theorem decodeWord_eq (w : Word) :
    decodeWord w =
      match Opcode.ofNum? (w.toNat / 2 ^ 66) with
      | none => .error (.unknownOpcode (w.toNat / 2 ^ 66))
      | some o => .ok (Instr.ofFields o (layout o.format (unpack w).2)) := by
  unfold decodeWord extract opcodeOf
  rw [unpack_opcode_toNat]
  cases Opcode.ofNum? (w.toNat / 2 ^ 66) <;> rfl

/-- The fields of a word in arithmetic form (R53). -/
theorem layout_unpack (f : Format) (w : Word) :
    layout f (unpack w).2 =
      match f with
      | .f3 => .f3 (w.toNat / 2 ^ 60 % 2 ^ 6) (w.toNat / 2 ^ 40 % 2 ^ 20) (w.toNat / 2 ^ 24 % 2 ^ 16)
      | .f4 => .f4 (w.toNat / 2 ^ 60 % 2 ^ 6) (w.toNat / 2 ^ 40 % 2 ^ 20) (w.toNat / 2 ^ 24 % 2 ^ 16)
          (w.toNat / 2 ^ 4 % 2 ^ 20) := by
  cases f <;> simp only [layout, BitVec.extractLsb'_toNat, unpack_raw_toNat, Nat.shiftRight_eq_div_pow] <;>
    simp <;> omega

/-- The bytes decoder on a stream that begins with a whole word. -/
theorem decodeBytes_bytesOfWord_append (w : Word) (rest : List Byte) :
    decodeBytes (bytesOfWord w ++ rest) =
      match decodeWord w with
      | .ok i => .ok (i, rest)
      | .error (.unknownOpcode op) => .error (.unknownOpcode op) := by
  have hl : (bytesOfWord w ++ rest).length = 9 + rest.length := by simp
  unfold decodeBytes
  rw [if_neg (by omega), if_neg (by simp)]
  simp only [Config.wordBytes]
  rw [List.take_left' (bytesOfWord_length w), List.drop_left' (bytesOfWord_length w), wordOfBytes_bytesOfWord] <;>
    rcases decodeWord w with ⟨⟨_⟩⟩ | _ <;> rfl

end Sys2Proof
end

