-- ==== Sys2Proof/Laws/Memory.lean ====
section
/-! SUPPORT. Memory: what a cell reads after a write, and that every operation keeps the canonical form. -/

namespace Sys2Proof.Machine

theorem Memory.erase_cons (x : Cell) (m : Memory) (k : Nat) :
    Memory.erase (x :: m) k = if x.1 = k then m.erase k else x :: m.erase k := by
  by_cases h : x.1 = k <;> simp [Memory.erase, h]

theorem Memory.read_cons (x : Cell) (m : Memory) (k : Nat) :
    Memory.read (x :: m) k = if x.1 = k then x.2 else m.read k := rfl

theorem Memory.read_erase_same (m : Memory) (k : Nat) : (m.erase k).read k = 0 := by
  induction m with
  | nil => rfl
  | cons x m ih =>
    rw [erase_cons]
    split
    · exact ih
    · rw [read_cons, if_neg ‹_›, ih]

theorem Memory.read_erase_other (m : Memory) {k j : Nat} (h : j ≠ k) : (m.erase k).read j = m.read j := by
  induction m with
  | nil => rfl
  | cons x m ih =>
    rw [erase_cons, read_cons]
    split
    · rw [ih, if_neg (by omega)]
    · rw [read_cons, ih]

theorem Memory.read_insert_same (m : Memory) (k v : Nat) (h : ∀ x ∈ m, x.1 ≠ k) : (m.insert (k, v)).read k = v := by
  induction m with
  | nil => simp [Memory.insert, Memory.read]
  | cons x m ih =>
    have hx := h x (by simp)
    have := ih fun y hy => h y (by simp [hy])
    unfold Memory.insert
    split <;> simp [Memory.read, hx, this]

theorem Memory.read_insert_other (m : Memory) {k j : Nat} (v : Nat) (h : j ≠ k) :
    (m.insert (k, v)).read j = m.read j := by
  induction m with
  | nil => simp [Memory.insert, Memory.read, h.symm]
  | cons x m ih =>
    unfold Memory.insert
    split <;> simp [Memory.read, ih, h.symm]

theorem Memory.erase_free (m : Memory) (k : Nat) : ∀ x ∈ m.erase k, x.1 ≠ k := by
  intro x hx
  simpa [Memory.erase] using (List.mem_filter.mp hx).2

/-- A cell reads as what was last written to it; true of any list, canonical or not. -/
theorem Memory.read_write_same (m : Memory) (k v : Nat) : (m.write k v).read k = v := by
  unfold Memory.write
  split
  · rw [read_erase_same, ‹v = 0›]
  · exact read_insert_same _ _ _ (erase_free m k)

/-- A write leaves every other cell alone; true of any list, canonical or not. -/
theorem Memory.read_write_other (m : Memory) {k j : Nat} (v : Nat) (h : j ≠ k) :
    (m.write k v).read j = m.read j := by
  unfold Memory.write
  split
  · exact read_erase_other m h
  · rw [read_insert_other _ _ h, read_erase_other m h]

theorem Memory.mem_insert {m : Memory} {x y : Cell} : y ∈ m.insert x ↔ y = x ∨ y ∈ m := by
  induction m with
  | nil => simp [Memory.insert]
  | cons z m ih =>
    unfold Memory.insert
    split <;> simp [ih]; tauto

theorem Memory.erase_wf {m : Memory} (h : m.wf) (k : Nat) : (m.erase k).wf :=
  ⟨h.1.filter _, fun x hx => h.2 x (List.mem_filter.mp hx).1⟩

theorem Memory.insert_wf {m : Memory} (h : m.wf) {k v : Nat} (hk : k < Config.memCells) (hv : v ≠ 0)
    (hf : ∀ x ∈ m, x.1 ≠ k) : (m.insert (k, v)).wf := by
  refine ⟨?_, fun y hy => ?_⟩
  · induction m with
    | nil => simp [Memory.insert]
    | cons x m ih =>
      have hx := hf x (by simp)
      have hm := List.pairwise_cons.mp h.1
      unfold Memory.insert
      split
      · refine List.pairwise_cons.mpr ⟨fun y hy => ?_, h.1⟩
        rcases List.mem_cons.mp hy with rfl | hy
        · assumption
        · exact lt_trans (by assumption) (hm.1 y hy)
      · refine List.pairwise_cons.mpr ⟨fun y hy => ?_, ?_⟩
        · rcases Memory.mem_insert.mp hy with rfl | hy
          · dsimp at *; omega
          · exact hm.1 y hy
        · exact ih ⟨hm.2, fun y hy => h.2 y (by simp [hy])⟩ fun y hy => hf y (by simp [hy])
  · rcases Memory.mem_insert.mp hy with rfl | hy
    · exact ⟨hk, hv⟩
    · exact h.2 y hy

/-- Every write to one of the 1024 cells keeps the canonical form. -/
theorem Memory.write_wf {m : Memory} (h : m.wf) {k : Nat} (v : Nat) (hk : k < Config.memCells) : (m.write k v).wf := by
  unfold Memory.write
  split
  · exact erase_wf h k
  · exact insert_wf (erase_wf h k) hk ‹_› (erase_free m k)

theorem Memory.read_of_mem {m : Memory} (h : m.wf) {x : Cell} (hx : x ∈ m) : m.read x.1 = x.2 := by
  induction m with
  | nil => cases hx
  | cons y m ih =>
    have hm := List.pairwise_cons.mp h.1
    rcases List.mem_cons.mp hx with rfl | hx
    · simp [Memory.read]
    · have := hm.1 x hx
      rw [Memory.read, if_neg (by omega)]
      exact ih ⟨hm.2, fun z hz => h.2 z (by simp [hz])⟩ hx

theorem Memory.mem_of_read {m : Memory} {k : Nat} (h : m.read k ≠ 0) : (k, m.read k) ∈ m := by
  induction m with
  | nil => exact absurd rfl h
  | cons y m ih =>
    rw [read_cons] at *
    split at h
    · rename_i hy
      simp [← hy]
    · rename_i hy
      rw [if_neg hy]
      exact List.mem_cons_of_mem _ (ih h)

/-- Canonical memories that read alike are the same list: equal memories are equal data. -/
theorem Memory.ext_of_wf {m n : Memory} (hm : m.wf) (hn : n.wf) (h : ∀ k, m.read k = n.read k) : m = n := by
  have sub : ∀ {p q : Memory}, p.wf → (∀ k, p.read k = q.read k) → ∀ x ∈ p, x ∈ q := fun hp he x hx => by
    have hr := Memory.read_of_mem hp hx
    have hz := (hp.2 x hx).2
    have := Memory.mem_of_read (by rwa [← he x.1, hr])
    rwa [← he x.1, hr] at this
  have nodup : ∀ {p : Memory}, p.wf → p.Nodup := fun hp =>
    hp.1.imp fun hlt he => by subst he; exact absurd hlt (lt_irrefl _)
  have perm : m.Perm n := (List.perm_ext_iff_of_nodup (nodup hm) (nodup hn)).mpr fun x =>
    ⟨sub hm h x, sub hn (fun k => (h k).symm) x⟩
  refine perm.eq_of_pairwise ?_ hm.1 hn.1
  intro a b _ _ hab hba
  exact absurd (lt_trans hab hba) (lt_irrefl _)

end Sys2Proof.Machine
end

