-- ==== Sys2Proof/Laws/State.lean ====
section
/-! SUPPORT. One lemma per field of the machine's state per update, so that no proof unfolds a record update. -/

namespace Sys2Proof.Machine

@[simp] theorem VmState.memWrite_mem (v : VmState) (i : CellIdx) (x : Nat) :
    (v.memWrite i x).mem = v.mem.write i x := rfl
@[simp] theorem VmState.memWrite_pc (v : VmState) (i : CellIdx) (x : Nat) : (v.memWrite i x).pc = v.pc := rfl
@[simp] theorem VmState.memWrite_errlog (v : VmState) (i : CellIdx) (x : Nat) : (v.memWrite i x).errlog = v.errlog := rfl

@[simp] theorem VmState.advance_mem (v : VmState) : v.advance.mem = v.mem := rfl
@[simp] theorem VmState.advance_pc (v : VmState) : v.advance.pc = v.pc + 1 := rfl
@[simp] theorem VmState.advance_errlog (v : VmState) : v.advance.errlog = v.errlog := rfl

@[simp] theorem VmState.raise_mem (v : VmState) (k : ErrKind) (n : Nat) : (v.raise k n).mem = v.mem := rfl
@[simp] theorem VmState.raise_pc (v : VmState) (k : ErrKind) (n : Nat) : (v.raise k n).pc = v.pc := rfl
@[simp] theorem VmState.raise_errlog (v : VmState) (k : ErrKind) (n : Nat) :
    (v.raise k n).errlog = v.errlog ++ [{ slot := v.pc, kind := k, info := n }] := rfl

@[simp] theorem VmState.finish_mem (v : VmState) (i : CellIdx) (x : Nat) : (v.finish i x).mem = v.mem.write i x := rfl
@[simp] theorem VmState.finish_pc (v : VmState) (i : CellIdx) (x : Nat) : (v.finish i x).pc = v.pc + 1 := rfl
@[simp] theorem VmState.finish_errlog (v : VmState) (i : CellIdx) (x : Nat) : (v.finish i x).errlog = v.errlog := rfl

@[simp] theorem VmState.reset_mem : VmState.reset.mem = [] := rfl
@[simp] theorem VmState.reset_pc : VmState.reset.pc = 0 := rfl
@[simp] theorem VmState.reset_errlog : VmState.reset.errlog = [] := rfl

@[simp] theorem State.load_vm (bs : List Byte) : (State.load bs).vm = VmState.reset := rfl
@[simp] theorem State.load_stream (bs : List Byte) : (State.load bs).stream = bs := rfl

@[simp] theorem State.withFetchWord_vm (s : State) (n w : Nat) : (s.withFetchWord n w).vm = s.vm := rfl

end Sys2Proof.Machine
end

