-- ==== Sys2Proof/Laws/Ops.lean ====
section
/-! SUPPORT. One lemma per shared operation, saying what it can do: the provers cite it instead of unfolding it. -/

namespace Sys2Proof.Machine

@[simp] theorem idx_val (v : Nat) : (idx v).val = v % 1024 := rfl

theorem idx_eq_iff {v u : Nat} : idx v = idx u ↔ v % 1024 = u % 1024 := Fin.ext_iff

theorem VmState.memRead_memWrite_same (v : VmState) (i : CellIdx) (x : Nat) : (v.memWrite i x).memRead i = x :=
  Memory.read_write_same _ _ _

theorem VmState.memRead_memWrite_other (v : VmState) {i j : CellIdx} (x : Nat) (h : j ≠ i) :
    (v.memWrite i x).memRead j = v.memRead j :=
  Memory.read_write_other _ _ (Fin.val_ne_of_ne h)

@[simp] theorem VmState.memRead_advance (v : VmState) (i : CellIdx) : v.advance.memRead i = v.memRead i := rfl

@[simp] theorem VmState.memRead_raise (v : VmState) (k : ErrKind) (n : Nat) (i : CellIdx) :
    (v.raise k n).memRead i = v.memRead i := rfl

/-- The block fetched where a stream holds the bytes of a word at positions 9k to 9k + 8 (R38). -/
theorem blockAt_append (pre post : List Byte) (w : Word) {k : Nat} (h : pre.length = 9 * k) :
    blockAt (pre ++ bytesOfWord w ++ post) k = bytesOfWord w := by
  unfold blockAt
  rw [List.append_assoc, Config.wordBytes, List.drop_left' h, List.take_left' (bytesOfWord_length w)]

/-- A stream that holds the bytes of a word at the slot `pc` has that block left, and the fetch answers that word (R101). -/
theorem State.fetch_of_append {s : State} {pre post : List Byte} {w : Word}
    (h : s.stream = pre ++ bytesOfWord w ++ post) (hp : pre.length = 9 * s.pc) :
    s.pc < wordCount s.stream ∧ s.fetch s.stream = w := by
  refine ⟨?_, ?_⟩
  · simp [wordCount, h, hp]
    omega
  · rw [VmState.fetch, h, blockAt_append _ _ _ hp, wordOfBytes_bytesOfWord]

/-- The word the host places is the word the next step fetches (log 8). -/
theorem State.fetch_withFetchWord (s : State) (nbits w : Nat) :
    (s.withFetchWord nbits w).pc < wordCount (s.withFetchWord nbits w).stream ∧
      (s.withFetchWord nbits w).fetch (s.withFetchWord nbits w).stream = BitVec.ofNat 72 (w % 2 ^ nbits) := by
  refine State.fetch_of_append (pre := s.stream.take (9 * s.pc) ++ List.replicate (9 * s.pc - s.stream.length) 0)
    (post := s.stream.drop (9 * s.pc + 9)) rfl ?_
  simp
  omega

/-- All that ending an instruction can do: one cell is set and `pc` has moved by one. -/
theorem VmState.finish_spec (v : VmState) (i : CellIdx) (x : Nat) :
    (v.finish i x).memRead i = x ∧ (∀ j, j ≠ i → (v.finish i x).memRead j = v.memRead j) ∧
      (v.mem.wf → (v.finish i x).mem.wf) ∧ (v.finish i x).pc = v.pc + 1 ∧ (v.finish i x).errlog = v.errlog :=
  ⟨v.memRead_memWrite_same i x, fun _ hj => v.memRead_memWrite_other x hj,
    fun hw => Memory.write_wf hw x i.isLt, rfl, rfl⟩

/-- The next state of a step that acts on the machine, by name. -/
theorem State.onVm_eq (s : State) (f : VmState → VmState) : s.onVm f = .next ⟨f s.vm, s.stream⟩ := rfl

/-- All that the end of the stream can do: nothing, or one report on a tail not yet reported. -/
theorem VmState.endOfStream_cases (v : VmState) (stream : List Byte) :
    (v.endOfStream stream = v ∧ (tailBytes stream = 0 ∨ v.tailReported = true)) ∨
    (v.endOfStream stream = v.raise .truncatedWord (tailBytes stream) ∧ tailBytes stream ≠ 0 ∧
      v.tailReported = false) := by
  unfold VmState.endOfStream
  by_cases h0 : tailBytes stream = 0 <;> cases hr : v.tailReported <;> simp [h0]

/-- All that a turn of the loop can do: an instruction, a skipped word, or the end of the stream. -/
theorem loopStep_cases (s : State) :
    (s.pc < wordCount s.stream ∧ ∃ i, decodeWord (s.fetch s.stream) = .ok i ∧ loopStep s = exec i s) ∨
    (s.pc < wordCount s.stream ∧ ∃ op, decodeWord (s.fetch s.stream) = .error (.unknownOpcode op) ∧
      loopStep s = .next ⟨(s.raise .unknownOpcode op).advance, s.stream⟩) ∨
    (wordCount s.stream ≤ s.pc ∧ loopStep s = .next ⟨s.endOfStream s.stream, s.stream⟩) := by
  unfold loopStep
  split
  · rename_i h
    unfold stepWord
    cases hd : decodeWord (s.fetch s.stream) with
    | ok i => exact .inl ⟨h, i, rfl, rfl⟩
    | error e => cases e with | unknownOpcode op => exact .inr (.inl ⟨h, op, rfl, rfl⟩)
  · rename_i h
    exact .inr (.inr ⟨Nat.le_of_not_lt h, rfl⟩)

end Sys2Proof.Machine
end

