-- ==== Sys2Proof/Laws/PerInstr.lean ====
section
/-! SUPPORT. Statements about every instruction as syntax, one lemma per constructor. -/

namespace Sys2Proof.Laws.EncodesIffWellFormed

/-- The encoder produces a word of an instruction exactly when every field fits its width (R82). -/
def Statement (i : Instr) : Prop := i.wf = true ↔ ∃ w, encode i = .ok w

theorem loadConst (a b c : Nat) : Statement (.loadConst a b c) := by
  simp [Statement, encode, Instr.wf, fits_iff, Instr.opcode, pack_ok_iff, Opcode.format, Instr.fields, Fields.a, Fields.b,
    Fields.c, and_assoc]

theorem loadMem (a b c : Nat) : Statement (.loadMem a b c) := by
  simp [Statement, encode, Instr.wf, fits_iff, Instr.opcode, pack_ok_iff, Opcode.format, Instr.fields, Fields.a, Fields.b,
    Fields.c, and_assoc]

theorem storeMem (a b c d : Nat) : Statement (.storeMem a b c d) := by
  simp [Statement, encode, Instr.wf, fits_iff, Instr.opcode, pack_ok_iff, Opcode.format, Instr.fields, Fields.a, Fields.b,
    Fields.c, Fields.d, and_assoc]

theorem bitwiseOr (a b c d : Nat) : Statement (.bitwiseOr a b c d) := by
  simp [Statement, encode, Instr.wf, fits_iff, Instr.opcode, pack_ok_iff, Opcode.format, Instr.fields, Fields.a, Fields.b,
    Fields.c, Fields.d, and_assoc]

theorem add (a b c : Nat) : Statement (.add a b c) := by
  simp [Statement, encode, Instr.wf, fits_iff, Instr.opcode, pack_ok_iff, Opcode.format, Instr.fields, Fields.a, Fields.b,
    Fields.c, and_assoc]

theorem xor (a b c : Nat) : Statement (.xor a b c) := by
  simp [Statement, encode, Instr.wf, fits_iff, Instr.opcode, pack_ok_iff, Opcode.format, Instr.fields, Fields.a, Fields.b,
    Fields.c, and_assoc]

end Sys2Proof.Laws.EncodesIffWellFormed
end

