-- ==== Sys2Proof/Laws/Run.lean ====
section
/-! SUPPORT. The host's run of the machine and the loop of RUN, one step at a time. -/

namespace Sys2Proof.Machine

@[simp] theorem coreRun_zero (s : State) : Host.Core.run Sys2Proof.core 0 s = .next s := rfl

/-- A run whose first step answers a next state goes on from that state. -/
theorem coreRun_succ {s t : State} (h : step s = .next t) (k : Nat) :
    Host.Core.run Sys2Proof.core (k + 1) s = Host.Core.run Sys2Proof.core k t := by
  simp only [Host.Core.run, show Sys2Proof.core.step s = .next t from h]

/-- STEP(stream) is the host's step on the wrapped state. -/
theorem stepOf_of_step {stream : List Byte} {v : VmState} {t : State} (h : step { vm := v, stream := stream } = .next t) :
    stepOf stream v = .next t.vm := by
  simp only [stepOf, h]

@[simp] theorem stepsOf_zero (stream : List Byte) (v : VmState) : stepsOf stream 0 v = .next v := rfl

/-- The loop of RUN goes on from the state its first step answers. -/
theorem stepsOf_succ {stream : List Byte} {v v' : VmState} (h : stepOf stream v = .next v') (n : Nat) :
    stepsOf stream (n + 1) v = stepsOf stream n v' := by
  simp only [stepsOf, h]

end Sys2Proof.Machine
end

