-- ==== Sys2Proof/Tests/Slice0.lean ====
section
/-! SUPPORT. The model's own tests: expected values from 95_test_vectors.md or by hand from the rules, and for every
statement with hypotheses a witness that meets them together. -/

namespace Sys2Proof.Machine

/-- The next state of an outcome, for comparison by `decide`. -/
def nextOf : Host.Outcome State Fault Refusal → Option State
  | .next s => some s
  | _ => none

/-- A state with the cells given, at slot 0 of the empty stream. -/
def cells (m : Memory) : State := { vm := { VmState.reset with mem := m }, stream := [] }

/-- Memory after one instruction. -/
def after (i : Instr) (m : Memory) : Option Memory := (nextOf (exec i (cells m))).map fun t => t.mem

/-- The bytes of the words given, as a stream. -/
def streamOf (ws : List Word) : List Byte := ws.flatMap bytesOfWord

/-! ## WellFormed: one ill-formed term for each check (R82) -/

theorem test_wf_loadConst : (Instr.loadConst 63 1048575 65535).wf = true ∧ (Instr.loadConst 64 0 0).wf = false ∧
    (Instr.loadConst 0 1048576 0).wf = false ∧ (Instr.loadConst 0 0 65536).wf = false := by decide
theorem test_wf_loadMem : (Instr.loadMem 63 1048575 65535).wf = true ∧ (Instr.loadMem 64 0 0).wf = false ∧
    (Instr.loadMem 0 1048576 0).wf = false ∧ (Instr.loadMem 0 0 65536).wf = false := by decide
theorem test_wf_storeMem : (Instr.storeMem 63 1048575 65535 1048575).wf = true ∧
    (Instr.storeMem 64 0 0 0).wf = false ∧ (Instr.storeMem 0 1048576 0 0).wf = false ∧
    (Instr.storeMem 0 0 65536 0).wf = false ∧ (Instr.storeMem 0 0 0 1048576).wf = false := by decide
theorem test_wf_bitwiseOr : (Instr.bitwiseOr 63 1048575 65535 1048575).wf = true ∧
    (Instr.bitwiseOr 64 0 0 0).wf = false ∧ (Instr.bitwiseOr 0 1048576 0 0).wf = false ∧
    (Instr.bitwiseOr 0 0 65536 0).wf = false ∧ (Instr.bitwiseOr 0 0 0 1048576).wf = false := by decide
theorem test_wf_add : (Instr.add 63 1048575 65535).wf = true ∧ (Instr.add 64 0 0).wf = false ∧
    (Instr.add 0 1048576 0).wf = false ∧ (Instr.add 0 0 65536).wf = false := by decide
theorem test_wf_xor : (Instr.xor 63 1048575 65535).wf = true ∧ (Instr.xor 64 0 0).wf = false ∧
    (Instr.xor 0 1048576 0).wf = false ∧ (Instr.xor 0 0 65536).wf = false := by decide

/-! ## Decoding: words written out bit by bit from R54, R55, R58 -/

/-- opcode 000000, A = 010101, B = 0xABCDE, C = 0x1234, pad all ones. -/
theorem test_decode_loadConst :
    decodeWord 0b000000010101101010111100110111100001001000110100111111111111111111111111#72 =
      .ok (.loadConst 0x15 0xABCDE 0x1234) := by decide
/-- opcode 000001, A = 000000, B = 1, C = 2, pad 0. -/
theorem test_decode_loadMem :
    decodeWord 0b000001000000000000000000000000010000000000000010000000000000000000000000#72 =
      .ok (.loadMem 0 1 2) := by decide
/-- opcode 000010, A = 0, B = 30, C = 10, D = 20, pad 1111. -/
theorem test_decode_storeMem :
    decodeWord 0b000010000000000000000000000111100000000000001010000000000000000101001111#72 =
      .ok (.storeMem 0 30 10 20) := by decide
/-- opcode 000011, A = 101010, B = 0x12345, C = 0xBEEF, D = 0xFEDCB, pad 0000. -/
theorem test_decode_bitwiseOr :
    decodeWord 0b000011101010000100100011010001011011111011101111111111101101110010110000#72 =
      .ok (.bitwiseOr 0x2A 0x12345 0xBEEF 0xFEDCB) := by decide
/-- opcode 000100, the top bit of each field only. -/
theorem test_decode_add :
    decodeWord 0b000100100000100000000000000000001000000000000000000000000000000000000000#72 =
      .ok (.add 32 524288 32768) := by decide
/-- opcode 000101, A = 1, B = 2, C = 3. -/
theorem test_decode_xor :
    decodeWord 0b000101000001000000000000000000100000000000000011000000000000000000000000#72 =
      .ok (.xor 1 2 3) := by decide
/-- The smallest and the largest unknown opcode, and the words next to the boundary (95 2.1). -/
theorem test_decode_unknown :
    decodeWord 0x17FFFFFFFFFFFFFFFF#72 = .ok (.xor 63 1048575 65535) ∧
    decodeWord 0x180000000000000000#72 = .error (.unknownOpcode 6) ∧
    decodeWord 0xFC50000A002A000000#72 = .error (.unknownOpcode 63) ∧
    decodeWord 0xFFFFFFFFFFFFFFFFFF#72 = .error (.unknownOpcode 63) := by decide
/-- R106, R158: fewer than nine bytes are no word, whatever they hold. -/
theorem test_decode_short :
    decodeBytes [0x18#8, 0#8, 0#8, 0#8] = .error (.truncatedWord 4) ∧ decodeBytes [] = .error .endOfStream ∧
    decodeBytes (0x18#8 :: List.replicate 8 0) = .error (.unknownOpcode 6) := by decide
/-- 95 2.1, rows (3, 42, ...) and (2, 0, 30, 10, 20). -/
theorem test_bytes_of_words :
    bytesOfWord 0x0EA12345BEEFFEDCB0#72 =
      [0x0E#8, 0xA1#8, 0x23#8, 0x45#8, 0xBE#8, 0xEF#8, 0xFE#8, 0xDC#8, 0xB0#8] ∧
    wordOfBytes [0x08#8, 0#8, 0#8, 0x1E#8, 0#8, 0x0A#8, 0#8, 0x01#8, 0x40#8] = 0x0800001E000A000140#72 := by decide
/-- R85, R86 worked examples: UNPACK and EXTRACT of `0800001E000A000140`. -/
theorem test_unpack_extract :
    unpack 0x0800001E000A000140#72 = (2#6, 0x00001E000A000140#66) ∧
    extract 2#6 0x00001E000A000140#66 = .ok (.f4 0 30 10 20) ∧
    extract 4#6 0x20800008000000000#66 = .ok (.f3 32 524288 32768) ∧
    extract 6#6 0#66 = .error (.unknownOpcode 6) := by decide

/-! ## Encoding (95 2.1, 2.2) -/

theorem test_encode_vectors :
    encode (.loadConst 63 1048575 65535) = .ok 0x03FFFFFFFFFF000000#72 ∧
    encode (.loadMem 21 703710 4660) = .ok 0x055ABCDE1234000000#72 ∧
    encode (.storeMem 63 1048575 65535 1048575) = .ok 0x0BFFFFFFFFFFFFFFF0#72 ∧
    encode (.bitwiseOr 42 74565 48879 1043915) = .ok 0x0EA12345BEEFFEDCB0#72 ∧
    encode (.add 32 524288 32768) = .ok 0x120800008000000000#72 ∧
    encode (.xor 1 2 3) = .ok 0x141000020003000000#72 := by decide
theorem test_pack_range_errors :
    pack .separate 0 64 1048576 65536 0 = .error (.rangeError .a 64) ∧
    pack .separate 1 0 1048576 0 0 = .error (.rangeError .b 1048576) ∧
    pack .separate 5 0 0 65536 0 = .error (.rangeError .c 65536) ∧
    pack .separate 3 0 0 0 1048576 = .error (.rangeError .d 1048576) ∧
    pack .separate 4 0 0 0 1048576 = .ok 0x100000000000000000#72 := by decide
theorem test_pack_nearest_accepted :
    pack .separate 0 63 0 0 0 = .ok 0x03F000000000000000#72 ∧
    pack .separate 0 0 1048575 0 0 = .ok 0x000FFFFF0000000000#72 ∧
    pack .separate 0 0 0 65535 0 = .ok 0x00000000FFFF000000#72 ∧
    pack .separate 2 0 0 0 1048575 = .ok 0x080000000000FFFFF0#72 := by decide
theorem test_pack_unknown_opcode :
    pack .separate 6 0 0 0 0 = .error (.unknownOpcode 6) ∧
    pack .separate 63 64 0 0 0 = .error (.unknownOpcode 63) := by decide
/-- R88 by hand: op 5, A 2: 5 | 2 = 7 and 2 stand in the opcode's place, A's own bits are 0. -/
theorem test_pack_alias_modes :
    pack .aliasOr 5 2 0 3 0 = .ok 0x1C0000000003000000#72 ∧
    pack .aliasReplace 5 2 0 3 0 = .ok 0x080000000003000000#72 := by decide
theorem test_hex_word : hexWord 0x0EA12345BEEFFEDCB0#72 = "0EA12345BEEFFEDCB0".toList := by decide
theorem test_table_words :
    decodeTableWord 72 0x000000000000000000 = some (.loadConst 0 0 0) ∧
    decodeTableWord 72 0x0C0000000000000000 = some (.bitwiseOr 0 0 0 0) ∧
    decodeTableWord 72 0x180000000000000000 = none := by decide

/-! ## The instructions, one step each (95 2.4 to 2.6) -/

theorem test_idx : (idx 1024).val = 0 ∧ (idx 1023).val = 1023 ∧ (idx 1047552).val = 0 ∧ (idx 1048574).val = 1022 ∧
    (idx 65535).val = 1023 ∧ (idx 1279).val = 255 := by decide
theorem test_loadConst_unreduced : after (.loadConst 0 0 2000) [] = some [(0, 2000)] ∧
    after (.loadConst 0 1048575 65535) [] = some [(1023, 65535)] := by decide
theorem test_loadConst_clears : after (.loadConst 63 7 0) [(7, 9)] = some [] ∧
    after (.loadConst 0 1034 7) [] = some [(10, 7)] := by decide
theorem test_loadMem_copies : after (.loadMem 0 300 3) [(3, 14)] = some [(3, 14), (300, 14)] ∧
    after (.loadMem 0 0 65535) [(1023, 65535)] = some [(0, 65535), (1023, 65535)] := by decide
theorem test_loadMem_corners : after (.loadMem 0 2058 1034) [(10, 7)] = some [(10, 7)] ∧
    after (.loadMem 0 5 6) [(5, 8)] = some [] ∧
    after (.loadMem 0 9 4) [(4, 2 ^ 70)] = some [(4, 2 ^ 70), (9, 2 ^ 70)] := by decide
theorem test_storeMem_adds : after (.storeMem 0 30 10 20) [(10, 5), (20, 7)] = some [(10, 5), (20, 7), (30, 12)] ∧
    after (.storeMem 0 3 1 2) [(1, 65535), (2, 65535)] = some [(1, 65535), (2, 65535), (3, 131070)] := by decide
theorem test_storeMem_corners : after (.storeMem 0 5 5 5) [(5, 21)] = some [(5, 42)] ∧
    after (.storeMem 0 3 1 2) [(1, 2 ^ 70), (2, 2 ^ 70)] = some [(1, 2 ^ 70), (2, 2 ^ 70), (3, 2 ^ 71)] := by decide
theorem test_bitwiseOr : after (.bitwiseOr 0 3 1 2) [(1, 12), (2, 10)] = some [(1, 12), (2, 10), (3, 14)] ∧
    after (.bitwiseOr 0 3 1 2) [(1, 2 ^ 70), (2, 3)] = some [(1, 2 ^ 70), (2, 3), (3, 2 ^ 70 + 3)] := by decide
theorem test_bitwiseOr_wraps :
    after (.bitwiseOr 63 1027 1025 1048574) [(1, 6), (3, 14)] = some [(1, 6), (3, 6)] := by decide
theorem test_add : after (.add 0 10 20) [(10, 42), (20, 58)] = some [(10, 100), (20, 58)] ∧
    after (.add 0 5 5) [(5, 65535)] = some [(5, 131070)] := by decide
theorem test_add_wraps : after (.add 0 1029 5) [(5, 3)] = some [(5, 6)] ∧
    after (.add 0 1047552 1023) [(0, 65535), (1023, 65535)] = some [(0, 131070), (1023, 65535)] := by decide
theorem test_xor : after (.xor 0 10 20) [(10, 6), (20, 3)] = some [(10, 5), (20, 3)] ∧
    after (.xor 0 1 2) [(1, 2 ^ 70 + 5), (2, 5)] = some [(1, 2 ^ 70), (2, 5)] := by decide
theorem test_xor_corners : after (.xor 0 5 5) [(5, 262140)] = some [] ∧
    after (.xor 0 6 5) [(5, 262140)] = some [(5, 262140), (6, 262140)] := by decide

/-! ## One step of the run loop (95 2.7) -/

theorem test_step_unknown_opcode :
    nextOf (step (State.load (streamOf [0xFCFFFFFFFFFFFFFFFF#72, 0x0000000A002A000000#72]))) =
      some { mem := [], pc := 1, errlog := [⟨0, .unknownOpcode, 63⟩],
             stream := streamOf [0xFCFFFFFFFFFFFFFFFF#72, 0x0000000A002A000000#72] } := by decide
theorem test_step_truncated_word :
    (nextOf (step (State.load [0#8, 0#8, 0#8, 0x0A#8]))).map (fun t => (t.mem, t.pc, t.errlog, t.over t.stream)) =
      some ([], 0, [⟨0, .truncatedWord, 4⟩], true) := by decide
theorem test_step_word :
    (nextOf (step (State.load (streamOf [0x0000000A002A000000#72] ++ [0#8, 0#8, 0#8])))).map
      (fun t => (t.mem, t.pc, t.errlog, t.over t.stream)) = some ([(10, 42)], 1, [], false) := by decide
/-- The host's placing of a table word makes it the next instruction, at reset and in a run already begun. -/
theorem test_withFetchWord :
    (nextOf (step (State.reset.withFetchWord 72 0x0000000A002A000000))).map (fun t => (t.mem, t.pc)) =
      some ([(10, 42)], 1) ∧
    (nextOf (step (({ cells [(3, 14)] with pc := 2, stream := streamOf [0#72] } : State).withFetchWord 72
      0x0400012C0003000000))).map (fun t => (t.mem, t.pc)) = some ([(3, 14), (300, 14)], 3) := by decide

/-! ## Source text (R66 to R74) -/

theorem test_assemble_scenario_4_line :
    assemble "# sum\n\n  store_mem 0 30 10\t020 ".toList =
      .ok ([0x08#8, 0#8, 0#8, 0x1E#8, 0#8, 0x0A#8, 0#8, 0x01#8, 0x40#8],
        [{ op := .storeMem, fields := [0, 30, 10, 20], word := 0x0800001E000A000140#72 }]) := by decide
theorem test_assemble_errors :
    assemble "ADD 0 1 2\nFOO 1 2 3".toList = .error (.unknownMnemonic "FOO".toList) ∧
    assemble "ADD 0 1".toList = .error .missingOperands ∧
    assemble "XOR 0 1 2 3".toList = .error .surplusOperands ∧
    assemble "ADD 0 -5 2".toList = .error (.malformedOperand "-5".toList) ∧
    assemble "LOAD_MEM 0 1048576 0".toList = .error (.packError (.rangeError .b 1048576)) := by decide

/-! ## Witnesses: the hypotheses of each statement, met together -/

theorem test_witness_DecodeOfEncodeIsIdentity :
    (Instr.bitwiseOr 63 1048575 65535 1048575).wf = true ∧ (Instr.xor 0 0 0).wf = true := by decide
theorem test_witness_EncodeOfDecodeClearsPad :
    decodeWord 0x0800001E000A00014F#72 = .ok (.storeMem 0 30 10 20) ∧
    decodeWord 0x0000000A002A000000#72 = .ok (.loadConst 0 10 42) := by decide
theorem test_witness_PackRefusesFirstBadField :
    63 < 64 ∧ (63 ≤ 63 ∧ 1048575 < 1048576) ∧ (1048575 ≤ 1048575 ∧ 65535 < 65536) ∧
    (Opcode.bitwiseOr.format = .f4 ∧ 1048575 < 1048576) ∧ Opcode.xor.format ≠ .f4 := by decide
theorem test_witness_PackRefusesUnknownOpcode : 5 < 6 := by decide
theorem test_witness_PackIgnoresDForThreeOperands : Opcode.xor.format = .f3 ∧ Opcode.loadConst.format = .f3 := by decide
theorem test_witness_AliasModesPlaceFieldA :
    63 ≤ 63 ∧ 1048575 ≤ 1048575 ∧ 65535 ≤ 65535 ∧ (0 = 0 ∧ 0 ≤ 63) := by decide
/-- First bytes 0x00, 0x04, ..., 0x17 and 0x18 meet the seven clauses, each at a boundary of its range. -/
theorem test_witness_DecoderReadsByteTable :
    (0x03#8).toNat / 4 = 0 ∧ (0x04#8).toNat / 4 = 1 ∧ (0x0B#8).toNat / 4 = 2 ∧ (0x0C#8).toNat / 4 = 3 ∧
    (0x13#8).toNat / 4 = 4 ∧ (0x17#8).toNat / 4 = 5 ∧ 5 < (0x18#8).toNat / 4 := by decide
theorem test_witness_DecodingIsTotalByOpcode :
    (0x17FFFFFFFFFFFFFFFF#72).toNat / 2 ^ 66 ≤ 5 ∧ 5 < (0x180000000000000000#72).toNat / 2 ^ 66 := by decide
theorem test_witness_SameCellsExecuteAlike :
    decodeWord 0x0BF0081E040A01014F#72 = .ok (.storeMem 63 2078 1034 4116) ∧
    decodeWord 0x0800001E000A000140#72 = .ok (.storeMem 0 30 10 20) ∧
    (Instr.storeMem 63 2078 1034 4116).meaningKey = (Instr.storeMem 0 30 10 20).meaningKey := by decide
/-- R64: two words of one operation, two of LOAD_CONST that differ in C above bit 9 alone, and two of different opcodes
that have the same effect and are different operations all the same. -/
theorem test_witness_SameOperationIffSameOpcodeAndCells :
    Operation.ofWord 0x0BF0081E040A01014F#72 = .ok (.storeMem 30 10 20) ∧
    Operation.ofWord 0x0800001E000A000140#72 = .ok (.storeMem 30 10 20) ∧
    Operation.ofWord 0x0000000A0401000000#72 = .ok (.loadConst 10 1025) ∧
    Operation.ofWord 0x0000000A0001000000#72 = .ok (.loadConst 10 1) ∧
    Operation.ofInstr (.add 0 1 2) ≠ Operation.ofInstr (.storeMem 0 1 1 2) := by decide
theorem test_witness_SameOperation_ranges :
    (0x0BF0081E040A01014F#72).toNat / 2 ^ 66 = 2 ∧ (0x0000000A0401000000#72).toNat / 2 ^ 66 = 0 ∧
    (0x17FFFFFFFFFFFFFFFF#72).toNat / 2 ^ 66 = 5 ∧
    pack Config.encAMode Opcode.bitwiseOr.num 63 1048575 65535 1048575 = .ok 0x0FFFFFFFFFFFFFFFF0#72 := by decide
theorem test_witness_OnlySameCellsExecuteAlike :
    (Instr.add 0 0 1).wf = true ∧ (Instr.add 5 1024 1).wf = true ∧
    ∀ s : State, exec (.add 0 0 1) s = exec (.add 5 1024 1) s :=
  ⟨by decide, by decide, fun _ => rfl⟩
theorem test_witness_encode_ranges :
    (∃ w, encode (.loadConst 63 1048575 65535) = .ok w) ∧ (∃ w, encode (.storeMem 63 1048575 65535 1048575) = .ok w) :=
  ⟨⟨_, rfl⟩, ⟨_, rfl⟩⟩
theorem test_witness_EveryInstructionWritesOneCell : (1 : CellIdx) ≠ idx (Instr.add 0 0 1).dest ∧ (cells []).mem.wf := by
  decide
theorem test_witness_FieldAIsNeverConsulted : (Instr.add 0 1 2).wf = true ∧ (63 ≤ 63 ∧ ¬64 ≤ 63) := by decide
theorem test_witness_DestinationAsSourceReadsOldValue : idx 5 = idx 1029 ∧ idx 2053 = idx 1029 := by decide
theorem test_witness_SelfCopyChangesNoMemory : (cells [(10, 7)]).mem.wf ∧ idx 2058 = idx 1034 := by decide
theorem test_witness_XorTwiceRestoresMemory : (cells [(10, 6), (20, 3)]).mem.wf ∧ idx 10 ≠ idx 20 := by decide
theorem test_witness_BitwiseOrLiesBetweenBounds :
    (cells [(1, 12), (2, 10)]).memRead 1 < 2 ^ 4 ∧ (cells [(1, 12), (2, 10)]).memRead 2 < 2 ^ 4 := by decide
/-- The first disjunct at a LOAD_CONST of the largest literal, the second at an ADD that leaves 16 bits. -/
theorem test_witness_CellBoundGrowsOneBitPerAdd :
    (∃ t, (∀ k, (State.load (streamOf [0x00000005FFFF000000#72])).memRead k < 2 ^ 16) ∧
      step (State.load (streamOf [0x00000005FFFF000000#72])) = .next t) ∧
    ∃ t, (∀ k, ({ cells [(5, 65535)] with stream := streamOf [0x100000050005000000#72] } : State).memRead k < 2 ^ 16) ∧
      step { cells [(5, 65535)] with stream := streamOf [0x100000050005000000#72] } = .next t ∧
      t.memRead (idx 5) = 131070 := by
  refine ⟨⟨_, fun k => ?_, rfl⟩, ⟨_, fun k => ?_, rfl, by decide⟩⟩
  · simp [VmState.memRead, Memory.read]
  · simp only [VmState.memRead, cells, Memory.read]
    split <;> decide
theorem test_witness_StepRunsDecodedInstruction :
    streamOf [0x180000000000000000#72, 0x0000000A002A000000#72] ++ [0#8] =
      streamOf [0x180000000000000000#72] ++ bytesOfWord 0x0000000A002A000000#72 ++ [0#8] ∧
    (streamOf [0x180000000000000000#72]).length = 9 * 1 ∧
    decodeWord 0x0000000A002A000000#72 = .ok (.loadConst 0 10 42) := by decide
theorem test_witness_StepSkipsUnknownOpcode :
    streamOf [0#72, 0x180000000000000000#72] = streamOf [0#72] ++ bytesOfWord 0x180000000000000000#72 ++ [] ∧
    (streamOf [0#72]).length = 9 * 1 ∧ 5 < (0x180000000000000000#72).toNat / 2 ^ 66 := by decide
/-- One trailing byte and eight, the ends of the range. -/
theorem test_witness_TrailingBytesReportedOnce :
    (0 = [0#8].length / 9 ∧ [0#8].length % 9 ≠ 0) ∧
    (1 = (List.replicate 17 0#8).length / 9 ∧ (List.replicate 17 0#8).length % 9 ≠ 0) ∧
    ∀ r ∈ [(⟨0, .unknownOpcode, 6⟩ : ErrReport)], r.kind ≠ .truncatedWord := by decide
theorem test_witness_StepAfterTheRunChangesNothing :
    State.reset.over [] = true ∧
    ({ State.reset with stream := [0#8], errlog := [⟨0, .truncatedWord, 1⟩] } : State).over [0#8] = true := by decide
theorem test_witness_EveryStepConsumesOneSlot :
    (State.load (streamOf [0#72])).pc < (State.load (streamOf [0#72])).stream.length / 9 ∧
    (State.load [0#8]).stream.length / 9 ≤ (State.load [0#8]).pc := by decide
theorem test_witness_ErrlogOnlyGrows :
    (∃ t, step (State.load [0#8]) = .next t) ∧ ∃ t, step (State.load (streamOf [0x180000000000000000#72])) = .next t :=
  ⟨⟨_, rfl⟩, ⟨_, rfl⟩⟩
/-- Two states with different slots, logs and streams. -/
theorem test_witness_NextMemoryDependsOnWordAlone :
    let s : State := ⟨⟨[(5, 3)], 0, []⟩, streamOf [0x100000050005000000#72]⟩
    let u : State := ⟨⟨[(5, 3)], 1, [⟨0, .unknownOpcode, 6⟩]⟩,
      streamOf [0x180000000000000000#72, 0x100000050005000000#72] ++ [0#8]⟩
    s.mem = u.mem ∧ s.fetch s.stream = u.fetch u.stream ∧ s.pc < s.stream.length / 9 ∧ u.pc < u.stream.length / 9 := by decide
/-- The invariant holds in the middle of a run and after its end, and a step answers from both. -/
theorem test_witness_StepKeepsRunInvariant :
    let s : State := ⟨⟨[(5, 3)], 1, [⟨0, .unknownOpcode, 6⟩]⟩, streamOf [0x180000000000000000#72, 0#72] ++ [0#8]⟩
    let u : State := ⟨⟨[(5, 3)], 1, [⟨0, .unknownOpcode, 6⟩, ⟨1, .truncatedWord, 1⟩]⟩,
      streamOf [0x180000000000000000#72] ++ [0#8]⟩
    s.Inv ∧ (nextOf (step s)).isSome ∧ u.Inv ∧ (nextOf (step u)).isSome := by decide
theorem test_witness_ErrlogIsBoundedBySlots :
    let s : State := ⟨⟨[], 0, [⟨0, .truncatedWord, 1⟩]⟩, [0#8]⟩
    s.Inv ∧ s.errlog = [] ++ (⟨0, .truncatedWord, 1⟩ : ErrReport) :: [] ∧
    (⟨0, .truncatedWord, 1⟩ : ErrReport).kind = .truncatedWord := by decide
theorem test_witness_SnapshotIsFirst256Cells :
    (State.load (streamOf [0#72])).over (streamOf [0#72]) = false ∧ (cells [(255, 9), (256, 9)]).over [] = true := by decide
theorem test_witness_RunTakesOneStepPerWord :
    0 ≤ (streamOf [0#72]).length / 9 ∧ 1 = (streamOf [0#72]).length / 9 ∧ (streamOf [0#72]).length % 9 = 0 := by decide
theorem test_witness_HostRunAnswersRun : ([] : List Byte).length / 9 < 1 ∧ (streamOf [0#72]).length / 9 < 2 := by decide
/-- A text with a comment, a blank line and two instruction lines. -/
theorem test_witness_AssembledStreamIsTheLogsWords :
    (assemble "#\nXOR 1 2 3\n\nxor 1 2 3".toList).toBool = true ∧
    (linesOf "#\nXOR 1 2 3\n\nxor 1 2 3".toList).filter isInstructionLine = ["XOR 1 2 3".toList, "xor 1 2 3".toList] :=
  ⟨by decide, by decide⟩
theorem test_witness_AssembledStream_lines :
    LineNames "XOR 1 2 3".toList { op := .xor, fields := [1, 2, 3], word := 0x141000020003000000#72 } ∧
    LineNames "store_mem 0 30 10 20".toList
      { op := .storeMem, fields := [0, 30, 10, 20], word := 0x0800001E000A000140#72 } :=
  ⟨⟨"XOR".toList, ["1".toList, "2".toList, "3".toList], by decide, by decide,
      .cons (by decide) (.cons (by decide) (.cons (by decide) .nil)), by decide, by decide⟩,
    ⟨"store_mem".toList, ["0".toList, "30".toList, "10".toList, "20".toList], by decide, by decide,
      .cons (by decide) (.cons (by decide) (.cons (by decide) (.cons (by decide) .nil))), by decide, by decide⟩⟩
/-- The largest value of each operand, in each format, with other letter cases and leading zeros. -/
theorem test_witness_InstructionTextAssemblesToItsWord :
    ((Instr.loadConst 63 1048575 65535).wf = true ∧ lookupMnemonic "Load_Const".toList = some .loadConst ∧
      List.Forall₂ (fun t v => parseOperand t = some v) ["063".toList, "1048575".toList, "65535".toList]
        (Instr.loadConst 63 1048575 65535).operands) ∧
    ((Instr.bitwiseOr 63 1048575 65535 1048575).wf = true ∧ lookupMnemonic "BITWISE_OR".toList = some .bitwiseOr ∧
      List.Forall₂ (fun t v => parseOperand t = some v)
        ["63".toList, "1048575".toList, "65535".toList, "01048575".toList]
        (Instr.bitwiseOr 63 1048575 65535 1048575).operands) :=
  ⟨⟨by decide, by decide, .cons (by decide) (.cons (by decide) (.cons (by decide) .nil))⟩,
    ⟨by decide, by decide, .cons (by decide) (.cons (by decide) (.cons (by decide) (.cons (by decide) .nil)))⟩⟩
theorem test_witness_LinesAndTokensSplitTheText :
    '\n' ∉ "ADD 0 1 2".toList ∧ (∀ c ∈ [' ', '\t'], isSpaceChar c = true) ∧ (∀ x ∈ "ADD".toList, isSpaceChar x = false) ∧
    isSpaceChar '\r' = true :=
  ⟨by decide, by simp [isSpaceChar], by simp [isSpaceChar], by decide⟩
theorem test_witness_OutOfRangeOperandAborts :
    "STORE_MEM 0 0 0 1048576".toList ∈ linesOf "STORE_MEM 0 0 0 1048576".toList ∧
    tokensOf "STORE_MEM 0 0 0 1048576".toList =
      ["STORE_MEM".toList, "0".toList, "0".toList, "0".toList, "1048576".toList] ∧
    "STORE_MEM".toList.head? ≠ some '#' ∧ lookupMnemonic "STORE_MEM".toList = some .storeMem ∧
    parseOperand "1048576".toList = some 1048576 ∧ parseOperand "0".toList = some 0 ∧
    pack Config.encAMode Opcode.storeMem.num 0 0 0 1048576 = .error (.rangeError .d 1048576) ∧
    assemble "LOAD_MEM 64 0 0".toList = .error (.packError (.rangeError .a 64)) :=
  ⟨by decide, by decide, by decide, by decide, by decide, by decide, by decide, by decide⟩
/-- A bad line between a good one and another bad one. -/
theorem test_witness_BadLineAbortsAssembly :
    tokensOf "FOO 1".toList = ["FOO".toList, "1".toList] ∧ "FOO".toList.head? ≠ some Config.commentMark ∧
    lookupMnemonic "FOO".toList = none ∧ "FOO 1".toList ∈ linesOf "XOR 1 2 3\nFOO 1\nXOR".toList ∧
    assembleLine Config.commentMark "FOO 1".toList = .error (.unknownMnemonic "FOO".toList) :=
  ⟨by decide, by decide, by decide, by decide, by decide⟩
theorem test_witness_BadLine_earlier :
    linesOf "XOR 1 2 3\nFOO 1\nXOR".toList = ["XOR 1 2 3".toList] ++ "FOO 1".toList :: ["XOR".toList] ∧
    assembleLine Config.commentMark "XOR 1 2 3".toList =
      .ok (some { op := .xor, fields := [1, 2, 3], word := 0x141000020003000000#72 }) ∧
    assembleLine Config.commentMark "XOR".toList = .error .missingOperands :=
  ⟨by decide, by decide, by decide⟩
/-- One operand too few and one too many in F3. -/
theorem test_witness_OperandCountMustMatchFormat :
    ("ADD 0 1".toList ∈ linesOf "ADD 0 1".toList ∧ tokensOf "ADD 0 1".toList = ["ADD".toList, "0".toList, "1".toList] ∧
      "ADD".toList.head? ≠ some Config.commentMark ∧ lookupMnemonic "ADD".toList = some .add ∧
      parseOperands ["0".toList, "1".toList] = .ok [0, 1] ∧ [0, 1].length < 3) ∧
    ("ADD 0 1 2 3".toList ∈ linesOf "ADD 0 1 2 3".toList ∧
      tokensOf "ADD 0 1 2 3".toList = ["ADD".toList, "0".toList, "1".toList, "2".toList, "3".toList] ∧
      parseOperands ["0".toList, "1".toList, "2".toList, "3".toList] = .ok [0, 1, 2, 3] ∧ 3 < [0, 1, 2, 3].length) :=
  ⟨⟨by decide, by decide, by decide, by decide, by decide, by decide⟩, by decide, by decide, by decide, by decide⟩
/-- One operand too few and one too many in F4. -/
theorem test_witness_OperandCount_f4 :
    ("STORE_MEM 0 1 2".toList ∈ linesOf "STORE_MEM 0 1 2".toList ∧
      tokensOf "STORE_MEM 0 1 2".toList = ["STORE_MEM".toList, "0".toList, "1".toList, "2".toList] ∧
      "STORE_MEM".toList.head? ≠ some Config.commentMark ∧ lookupMnemonic "STORE_MEM".toList = some .storeMem ∧
      parseOperands ["0".toList, "1".toList, "2".toList] = .ok [0, 1, 2] ∧ [0, 1, 2].length < 4) ∧
    ("STORE_MEM 0 1 2 3 4".toList ∈ linesOf "STORE_MEM 0 1 2 3 4".toList ∧
      tokensOf "STORE_MEM 0 1 2 3 4".toList =
        ["STORE_MEM".toList, "0".toList, "1".toList, "2".toList, "3".toList, "4".toList] ∧
      parseOperands ["0".toList, "1".toList, "2".toList, "3".toList, "4".toList] = .ok [0, 1, 2, 3, 4] ∧
      4 < [0, 1, 2, 3, 4].length) :=
  ⟨⟨by decide, by decide, by decide, by decide, by decide, by decide⟩, by decide, by decide, by decide, by decide⟩
/-- R69's own examples, and two tokens that are one letter away from a name. -/
theorem test_mnemonic_case :
    lookupMnemonic "add".toList = some .add ∧ lookupMnemonic "Add".toList = some .add ∧
    lookupMnemonic "ADD".toList = some .add ∧ lookupMnemonic "ADDD".toList = none ∧
    lookupMnemonic "LOADMEM".toList = none := by decide
theorem test_witness_CommentAndBlankLinesAreSkipped :
    (∀ c ∈ [' ', '\t'], isSpaceChar c = true) ∧ '#' ∈ ['A', 'D', 'D', '#'] :=
  ⟨by simp [isSpaceChar], by decide⟩
theorem test_witness_OperandsAreDecimalDigits :
    ('0' ≤ '0' ∧ '9' ≤ '9') ∧ parseOperand "07".toList = some 7 ∧ parseOperand "0x10".toList = none ∧
    "ADD 0 0x10 2".toList ∈ linesOf "ADD 0 0x10 2\nXOR 1 2 3".toList ∧
    tokensOf "ADD 0 0x10 2".toList = ["ADD".toList, "0".toList, "0x10".toList, "2".toList] ∧
    "ADD".toList.head? ≠ some '#' ∧ lookupMnemonic "ADD".toList = some .add := by decide

end Sys2Proof.Machine
end

section
/-! What each instruction does, one equation per arm of `exec`: the cell written and the value it gets. -/

namespace Sys2Proof.Machine

theorem exec_loadConst (a b c : Nat) (s : State) :
    exec (.loadConst a b c) s = .next ⟨s.vm.finish (idx b) (literal c), s.stream⟩ := rfl

theorem exec_loadMem (a b c : Nat) (s : State) :
    exec (.loadMem a b c) s = .next ⟨s.vm.finish (idx b) (s.vm.source c), s.stream⟩ := rfl

theorem exec_storeMem (a b c d : Nat) (s : State) :
    exec (.storeMem a b c d) s =
      .next ⟨s.vm.finish (idx b) (sumOf (s.vm.source c) (s.vm.source d)), s.stream⟩ := rfl

theorem exec_bitwiseOr (a b c d : Nat) (s : State) :
    exec (.bitwiseOr a b c d) s =
      .next ⟨s.vm.finish (idx b) (orOf (s.vm.source c) (s.vm.source d)), s.stream⟩ := rfl

theorem exec_add (a b c : Nat) (s : State) :
    exec (.add a b c) s =
      .next ⟨s.vm.finish (idx b) (sumOf (s.vm.source b) (s.vm.source c)), s.stream⟩ := rfl

theorem exec_xor (a b c : Nat) (s : State) :
    exec (.xor a b c) s =
      .next ⟨s.vm.finish (idx b) (xorOf (s.vm.source b) (s.vm.source c)), s.stream⟩ := rfl

end Sys2Proof.Machine
end

section
/-! The memory indexer (20_memory.md R32): the low ten bits, so reducing an address beforehand changes nothing. -/

namespace Sys2Proof.Machine

theorem idx_val_eq_and (v : Nat) : (idx v).val = v &&& 1023 :=
  (Nat.and_two_pow_sub_one_eq_mod v 10).symm

theorem idx_val_of_lt {v : Nat} (h : v < 1024) : (idx v).val = v :=
  Nat.mod_eq_of_lt h

@[simp] theorem idx_mod (v : Nat) : idx (v % 1024) = idx v :=
  idx_eq_iff.mpr (Nat.mod_mod v 1024)

@[simp] theorem VmState.source_mod (s : VmState) (v : Nat) : s.source (v % 1024) = s.source v :=
  congrArg s.memRead (idx_mod v)

/-- Settles O22: an instruction reaches an address operand only through `idx` or `source`, and both are blind to the
reduction (`idx_mod`, `source_mod`). -/
theorem addressesWrapModulo1024 : Obligations.AddressesWrapModulo1024 := by
  refine ⟨fun v => ⟨idx_val v, idx_val_eq_and v, idx_val_of_lt⟩, fun a b c d s => ⟨?_, ?_, ?_, ?_, ?_, ?_⟩⟩
  · simp only [exec_loadConst, idx_mod]
  · simp only [exec_loadMem, idx_mod, VmState.source_mod]
  · simp only [exec_storeMem, idx_mod, VmState.source_mod]
  · simp only [exec_bitwiseOr, idx_mod, VmState.source_mod]
  · simp only [exec_add, idx_mod, VmState.source_mod]
  · simp only [exec_xor, idx_mod, VmState.source_mod]

end Sys2Proof.Machine
end

section
/-! Field A (30_encoding.md R61): no operation reads it, and the encoder accepts what its width admits. -/

namespace Sys2Proof.Machine

theorem exec_withA (i : Instr) (a : Nat) (s : State) : exec (i.withA a) s = exec i s := by
  cases i with
  | loadConst | loadMem | storeMem | bitwiseOr | add | xor => rfl

/-- The encoder has a word of exactly the well-formed instructions, whatever the constructor. -/
theorem encode_ok_iff_wf (i : Instr) : (∃ w, encode i = .ok w) ↔ i.wf = true := by
  cases i with
  | loadConst a b c => exact (Laws.EncodesIffWellFormed.loadConst a b c).symm
  | loadMem a b c => exact (Laws.EncodesIffWellFormed.loadMem a b c).symm
  | storeMem a b c d => exact (Laws.EncodesIffWellFormed.storeMem a b c d).symm
  | bitwiseOr a b c d => exact (Laws.EncodesIffWellFormed.bitwiseOr a b c d).symm
  | add a b c => exact (Laws.EncodesIffWellFormed.add a b c).symm
  | xor a b c => exact (Laws.EncodesIffWellFormed.xor a b c).symm

theorem wf_withA_iff {i : Instr} (h : i.wf = true) (a : Nat) : (i.withA a).wf = true ↔ a ≤ 63 := by
  cases i with
  | loadConst | loadMem | storeMem | bitwiseOr | add | xor =>
    simp only [Instr.withA, Instr.wf, Bool.and_eq_true, fits_iff, Config.aBits] at h ⊢
    tauto

/-- Settles O21: `exec` is blind to field A (`exec_withA`), and to encode is to be well-formed (`encode_ok_iff_wf`). -/
theorem fieldAIsNeverConsulted : Obligations.FieldAIsNeverConsulted :=
  ⟨exec_withA, fun i a h => (encode_ok_iff_wf (i.withA a)).trans (wf_withA_iff h a)⟩

end Sys2Proof.Machine
end

section
/-! The byte form of a word (30_encoding.md R51): each byte is a slice of the word, and nine bytes are its base-256
digits. -/

namespace Sys2Proof

theorem bytesOfWord_getElem? (w : Word) {k : Nat} (hk : k < 9) :
    (bytesOfWord w)[k]? = some (w.extractLsb' (64 - 8 * k) 8) := by
  interval_cases k <;> rfl

theorem toNat_byteSlice (w : Word) (k : Nat) :
    (w.extractLsb' (64 - 8 * k) 8).toNat = w.toNat / 2 ^ (64 - 8 * k) % 2 ^ 8 := by
  rw [BitVec.extractLsb'_toNat, Nat.shiftRight_eq_div_pow]

theorem getLsbD_byteSlice (w : Word) {i : Nat} (hi : i < 72) :
    (w.extractLsb' (64 - 8 * (i / 8)) 8).getLsbD (7 - i % 8) = w.getLsbD (71 - i) := by
  have hpos : 64 - 8 * (i / 8) + (7 - i % 8) = 71 - i := by omega
  have hbit : 7 - i % 8 < 8 := by omega
  simp [hpos, hbit]

theorem bigEndian_lt (bs : List Byte) : bigEndian bs < 256 ^ bs.length := by
  induction bs using List.reverseRecOn with
  | nil => decide
  | append_singleton bs b ih =>
    have hb := b.isLt
    have hlast : bigEndian (bs ++ [b]) = bigEndian bs * 256 + b.toNat := by simp [bigEndian]
    rw [hlast, List.length_append, List.length_singleton, pow_succ]
    omega

/-- Nine bytes spell a number of 72 bits, so their word loses none of it. -/
theorem wordOfBytes_toNat {bs : List Byte} (h : bs.length = 9) : (wordOfBytes bs).toNat = bigEndian bs := by
  have hlt := bigEndian_lt bs
  rw [h] at hlt
  rw [wordOfBytes, BitVec.toNat_ofNat, Nat.mod_eq_of_lt (by omega)]

/-- Settles O7: both halves of a byte's description are read off the one slice it is. -/
theorem wordBytesAreBigEndian : Obligations.WordBytesAreBigEndian := by
  refine ⟨fun w => ⟨bytesOfWord_length w, fun k hk => ?_, fun i hi => ?_⟩, fun b0 b1 b2 b3 b4 b5 b6 b7 b8 => ?_⟩
  · exact ⟨_, bytesOfWord_getElem? w hk, toNat_byteSlice w k⟩
  · exact ⟨_, bytesOfWord_getElem? w (by omega), getLsbD_byteSlice w hi⟩
  · rw [wordOfBytes_toNat rfl]
    simp only [bigEndian, List.foldl_cons, List.foldl_nil]
    omega

end Sys2Proof
end

section
/-! Skipped lines (30_encoding.md R66, R67): leading whitespace leaves the tokens as they are, and the first visible
character opens the first token. -/

namespace Sys2Proof.Machine

theorem tokensOf_cons_of_isSpaceChar {c : Char} (hc : isSpaceChar c = true) (cs : List Char) :
    tokensOf (c :: cs) = tokensOf cs := by
  simp [tokensOf, splitAtChar, hc]

theorem tokensOf_cons_of_visible {c : Char} (hc : isSpaceChar c = false) (cs : List Char) :
    ∃ t ts, tokensOf (c :: cs) = (c :: t) :: ts := by
  cases hs : splitAtChar isSpaceChar cs with
  | nil => exact absurd hs (splitAtChar_ne_nil _ _)
  | cons t ts => exact ⟨t, ts.filter fun t => t ≠ [], by simp [tokensOf, splitAtChar, hc, hs]⟩

theorem assembleLine_cons_of_isSpaceChar (mark : Char) {c : Char} (hc : isSpaceChar c = true) (cs : List Char) :
    assembleLine mark (c :: cs) = assembleLine mark cs := by
  unfold assembleLine
  rw [tokensOf_cons_of_isSpaceChar hc]

/-- An instruction line is answered by an entry or an error, never by nothing. -/
theorem assembleLine_cons_of_visible (mark : Char) {c : Char} (hc : isSpaceChar c = false) (cs : List Char) :
    assembleLine mark (c :: cs) = .ok none ↔ c = mark := by
  obtain ⟨t, ts, ht⟩ := tokensOf_cons_of_visible hc cs
  unfold assembleLine
  rw [ht]
  by_cases hm : c = mark
  · simp [hm]
  · cases ho : lookupMnemonic (c :: t) with
    | none => simp [hm, ho]
    | some o => cases hp : (parseOperands ts).bind (packLine o) <;> simp [hm, ho, hp, Except.map]

/-- The first visible character of the line is the mark (R67). -/
def MarkedLine (mark : Char) (line : List Char) : Prop :=
  ∃ blanks rest : List Char, line = blanks ++ mark :: rest ∧ ∀ c ∈ blanks, isSpaceChar c = true

theorem markedLine_cons_iff {mark c : Char} {cs : List Char} :
    MarkedLine mark (c :: cs) ↔ c = mark ∨ isSpaceChar c = true ∧ MarkedLine mark cs := by
  constructor
  · rintro ⟨_ | ⟨b, blanks⟩, rest, hline, hblanks⟩
    · exact .inl (List.cons.inj hline).1
    · obtain ⟨rfl, hcs⟩ := List.cons.inj hline
      obtain ⟨hc, hblanks⟩ := List.forall_mem_cons.mp hblanks
      exact .inr ⟨hc, blanks, rest, hcs, hblanks⟩
  · rintro (rfl | ⟨hc, blanks, rest, rfl, hblanks⟩)
    · exact ⟨[], cs, rfl, by simp⟩
    · exact ⟨c :: blanks, rest, rfl, List.forall_mem_cons.mpr ⟨hc, hblanks⟩⟩

/-- The skipped lines for any visible mark (U13), by recursion on the leading whitespace. -/
theorem assembleLine_eq_none_iff {mark : Char} (hm : isSpaceChar mark = false) (line : List Char) :
    assembleLine mark line = .ok none ↔ (∀ c ∈ line, isSpaceChar c = true) ∨ MarkedLine mark line := by
  induction line with
  | nil => simp [assembleLine, tokensOf, splitAtChar]
  | cons c cs ih =>
    cases hc : isSpaceChar c with
    | true =>
      have hne : c ≠ mark := by
        rintro rfl
        simp [hm] at hc
      simp [assembleLine_cons_of_isSpaceChar mark hc, ih, hc, markedLine_cons_iff, hne]
    | false => simp [assembleLine_cons_of_visible mark hc, hc, markedLine_cons_iff]

theorem lookupMnemonic_eq_none_of_hash_mem {token : List Char} (h : '#' ∈ token) : lookupMnemonic token = none := by
  have hup : '#' ∈ token.map upperChar := List.mem_map.mpr ⟨'#', h, rfl⟩
  have hcat : ∀ o ∈ catalog, '#' ∉ o.mnemonic := by decide
  refine List.find?_eq_none.mpr fun o ho heq => hcat o ho ?_
  rwa [of_decide_eq_true heq]

theorem parseOperand_eq_none_of_hash_mem {token : List Char} (h : '#' ∈ token) : parseOperand token = none := by
  rw [parseOperand_eq, if_neg]
  rintro ⟨-, hdigits⟩
  exact absurd (hdigits '#' h) (by decide)

/-- Settles O48: a line is nothing exactly when its first visible character is the mark or is missing
(`assembleLine_eq_none_iff`), and # is neither a letter of a mnemonic nor a digit. -/
theorem commentAndBlankLinesAreSkipped : Obligations.CommentAndBlankLinesAreSkipped :=
  ⟨assembleLine_eq_none_iff (by decide),
    fun _ h => ⟨lookupMnemonic_eq_none_of_hash_mem h, parseOperand_eq_none_of_hash_mem h⟩⟩

end Sys2Proof.Machine
end

section
/-! PACK's checks and UNPACK (40_codec.md R81, R82, R85): the order in which PACK refuses, and the two parts of a word. -/

namespace Sys2Proof

theorem pack_of_five_lt (mode : EncAMode) {op : Nat} (h : 5 < op) (a b c d : Nat) :
    pack mode op a b c d = .error (.unknownOpcode op) := by
  simp only [pack, Opcode.ofNum?_eq_none.mpr h]

/-- PACK on an opcode of the list: the four checks in their order, with each field's largest value written out. -/
theorem pack_num (mode : EncAMode) (o : Opcode) (a b c d : Nat) :
    pack mode o.num a b c d =
      if 63 < a then .error (.rangeError .a a)
      else if 1048575 < b then .error (.rangeError .b b)
      else if 65535 < c then .error (.rangeError .c c)
      else if o.format = .f4 ∧ 1048575 < d then .error (.rangeError .d d)
      else .ok (BitVec.ofNat 72 (packedNat mode (o.format = .f4) o.num a b c d)) := by
  simp only [pack, Opcode.ofNum?_num]
  rfl

/-- Settles O4: the opcode check is the first. -/
theorem packRefusesUnknownOpcode : Obligations.PackRefusesUnknownOpcode :=
  fun mode _ a b c d h => pack_of_five_lt mode h a b c d

/-- Settles O3: a refusal is the first of PACK's checks that fails (`pack_num`), and with none of them failing there is a
word (`pack_ok_iff`). -/
theorem packRefusesFirstBadField : Obligations.PackRefusesFirstBadField := by
  refine fun mode o a b c d => ⟨fun ha => ?_, fun ha hb => ?_, fun ha hb hc => ?_, fun ha hb hc ho hd => ?_,
    fun ha hb hc hd => (pack_ok_iff mode o a b c d).mpr ⟨ha, hb, hc, hd⟩⟩
  · rw [pack_num, if_pos ha]
  · rw [pack_num, if_neg ha.not_gt, if_pos hb]
  · rw [pack_num, if_neg ha.not_gt, if_neg hb.not_gt, if_pos hc]
  · rw [pack_num, if_neg ha.not_gt, if_neg hb.not_gt, if_neg hc.not_gt, if_pos ⟨ho, hd⟩]

/-- Settles O10: each part of UNPACK's answer is a slice of the word. -/
theorem unpackSplitsEveryWord : Obligations.UnpackSplitsEveryWord :=
  fun w => ⟨unpack_opcode_toNat w, unpack_raw_toNat w⟩

end Sys2Proof
end

section
/-! The run loop (41_interpreter.md): what a step does with the block it fetches, and what a run answers. -/

namespace Sys2Proof.Machine

/-- While a complete block is left, a step is what the fetched word calls for (R100, R101). -/
theorem step_of_pc_lt {s : State} (h : s.pc < wordCount s.stream) : step s = stepWord s :=
  if_pos h

theorem stepWord_of_decode_ok {s : State} {i : Instr} (h : decodeWord (s.fetch s.stream) = .ok i) :
    stepWord s = exec i s := by
  simp only [stepWord, h]

theorem stepWord_of_decode_error {s : State} {op : Nat}
    (h : decodeWord (s.fetch s.stream) = .error (.unknownOpcode op)) :
    stepWord s = .next ⟨(s.raise .unknownOpcode op).advance, s.stream⟩ := by
  simp only [stepWord, h, State.onVm_eq]

/-- DECODE refuses every word whose opcode is above 5, whatever its other bits are (R60, R86). -/
theorem decodeWord_of_five_lt {w : Word} (h : 5 < w.toNat / 2 ^ 66) :
    decodeWord w = .error (.unknownOpcode (w.toNat / 2 ^ 66)) := by
  rw [decodeWord_eq, Opcode.ofNum?_eq_none.mpr h]

/-- Settles O30: the fetch answers the word (`fetch_of_append`), DECODE refuses its opcode, and the refusal's arm is the
record followed by the advance. -/
theorem stepSkipsUnknownOpcode : Obligations.StepSkipsUnknownOpcode := by
  intro s pre post w hs hpre hop
  obtain ⟨hlt, hfetch⟩ := State.fetch_of_append hs hpre
  have hdec : decodeWord (s.fetch s.stream) = .error (.unknownOpcode (w.toNat / 2 ^ 66)) := by
    rw [hfetch, decodeWord_of_five_lt hop]
  rw [step_of_pc_lt hlt, stepWord_of_decode_error hdec]
  rfl

/-- Settles O29: the fetch answers the word (`fetch_of_append`), and the step hands its instruction to `exec`. -/
theorem stepRunsDecodedInstruction : Obligations.StepRunsDecodedInstruction := by
  intro s pre post w i hs hpre hdec
  obtain ⟨hlt, hfetch⟩ := State.fetch_of_append hs hpre
  rw [step_of_pc_lt hlt, stepWord_of_decode_ok (hfetch.symm ▸ hdec)]

@[simp] theorem snapshot_length (m : Memory) : (snapshot m).length = 256 := by
  simp [snapshot]

theorem snapshot_getElem? (m : Memory) {k : Nat} (h : k < 256) : (snapshot m)[k]? = some (m.read k) := by
  simp [snapshot, h]

/-- The snapshot of the Memory of reset (R109, R180): the list of no cells reads 0 everywhere. -/
theorem snapshot_nil : snapshot [] = List.replicate 256 0 := by
  change (List.range 256).map (fun _ => 0) = List.replicate 256 0
  rw [List.map_const', List.length_range]

theorem VmState.result_of_over {v : VmState} {stream : List Byte} (h : v.over stream = true) :
    v.result stream = some { snapshot := snapshot v.mem, errlog := v.errlog } :=
  if_pos h

theorem VmState.result_of_not_over {v : VmState} {stream : List Byte} (h : v.over stream = false) :
    v.result stream = none :=
  if_neg (Bool.eq_false_iff.mp h)

/-- Settles O40: a result is answered exactly in the branch where the run is over, and the cells it lists are below 1024,
so the indexer leaves their numbers as they are (`idx_val_of_lt`). -/
theorem snapshotIsFirst256Cells : Obligations.SnapshotIsFirst256Cells := by
  refine fun s => ⟨VmState.result_of_not_over, fun h =>
    ⟨_, VmState.result_of_over h, rfl, snapshot_length s.mem, fun k hk => ?_⟩⟩
  rw [snapshot_getElem? s.mem hk, VmState.memRead, idx_val_of_lt (by omega)]

/-- RUN of the empty stream takes no step and has no tail to report: it ends in the state of reset (R109). -/
theorem finalOf_nil : finalOf [] = some VmState.reset :=
  rfl

/-- Settles O43: the final state of the empty stream is that of reset, whose Memory lists no cell. -/
theorem emptyStreamIsAccepted : Obligations.EmptyStreamIsAccepted := by
  refine ⟨by decide, ?_⟩
  rw [run, finalOf_nil, Option.map_some, VmState.reset_mem, VmState.reset_errlog, snapshot_nil]

end Sys2Proof.Machine
end

section
/-! Data movement (42_moves.md): what an instruction that ends in `finish` leaves behind, the words of format F3, and with
them LOAD_CONST and LOAD_MEM. -/

namespace Sys2Proof

/-- The words of an instruction of format F3 (R54, R82, R83): the field bounds and the sum of the placed fields, with no
part of field D. -/
theorem encode_eq_ok_of_f3 {i : Instr} (hf : i.opcode.format = .f3) (w : Word) :
    encode i = .ok w ↔ i.fields.a ≤ 63 ∧ i.fields.b ≤ 1048575 ∧ i.fields.c ≤ 65535 ∧
      w.toNat = i.opcode.num * 2 ^ 66 + i.fields.a * 2 ^ 60 + i.fields.b * 2 ^ 40 + i.fields.c * 2 ^ 24 := by
  have hpack : encode i = .ok w ↔ _ :=
    pack_separate_eq_ok i.opcode i.fields.a i.fields.b i.fields.c i.fields.d w
  simpa [hf] using hpack

end Sys2Proof

namespace Sys2Proof.Machine

/-- An instruction that sets cell `k` to `x` and ends completes, and its next state differs in that cell and `pc` alone. -/
theorem exec_frame_of_finish {i : Instr} {s : State} {k : CellIdx} {x : Nat}
    (h : exec i s = .next ⟨s.vm.finish k x, s.stream⟩) :
    ∃ t, exec i s = .next t ∧ t.memRead k = x ∧ (∀ j, j ≠ k → t.memRead j = s.memRead j) ∧
      t.pc = s.pc + 1 ∧ t.errlog = s.errlog ∧ t.stream = s.stream := by
  obtain ⟨hset, hother, -, hpc, hlog⟩ := s.vm.finish_spec k x
  exact ⟨_, h, hset, hother, hpc, hlog, rfl⟩

/-- Settles O14: LOAD_CONST ends in `finish` with the literal (`exec_loadConst`), and its word is of format F3. -/
theorem loadConstWritesLiteral : Obligations.LoadConstWritesLiteral :=
  fun a b c s => ⟨exec_frame_of_finish (exec_loadConst a b c s), encode_eq_ok_of_f3 (i := .loadConst a b c) rfl⟩

/-- Settles O15: LOAD_MEM ends in `finish` with the old content of its source (`exec_loadMem`), and its word is of format
F3. -/
theorem loadMemCopiesCell : Obligations.LoadMemCopiesCell :=
  fun a b c s => ⟨exec_frame_of_finish (exec_loadMem a b c s), encode_eq_ok_of_f3 (i := .loadMem a b c) rfl⟩

end Sys2Proof.Machine
end

section
/-! Three-address instructions (43_three_address.md): the words of format F4, and with them STORE_MEM and BITWISE_OR. -/

namespace Sys2Proof

/-- The words of an instruction of format F4 (R55, R82, R83): the field bounds and the sum of all four placed fields. -/
theorem encode_eq_ok_of_f4 {i : Instr} (hf : i.opcode.format = .f4) (w : Word) :
    encode i = .ok w ↔ i.fields.a ≤ 63 ∧ i.fields.b ≤ 1048575 ∧ i.fields.c ≤ 65535 ∧ i.fields.d ≤ 1048575 ∧
      w.toNat = i.opcode.num * 2 ^ 66 + i.fields.a * 2 ^ 60 + i.fields.b * 2 ^ 40 + i.fields.c * 2 ^ 24 +
        i.fields.d * 2 ^ 4 := by
  have hpack : encode i = .ok w ↔ _ :=
    pack_separate_eq_ok i.opcode i.fields.a i.fields.b i.fields.c i.fields.d w
  simpa [hf] using hpack

end Sys2Proof

namespace Sys2Proof.Machine

/-- Settles O16: STORE_MEM ends in `finish` with the sum of its two sources (`exec_storeMem`), and its word is of format
F4. -/
theorem storeMemWritesSum : Obligations.StoreMemWritesSum :=
  fun a b c d s => ⟨exec_frame_of_finish (exec_storeMem a b c d s), encode_eq_ok_of_f4 (i := .storeMem a b c d) rfl⟩

/-- Every binary digit of the OR of two numbers, at any position (R131). -/
theorem testBit_orOf (x y n : Nat) : (orOf x y).testBit n = (x.testBit n || y.testBit n) :=
  Nat.testBit_or x y n

/-- Settles O17: BITWISE_OR ends in `finish` with the OR of its two sources (`exec_bitwiseOr`), whose digits are known
(`testBit_orOf`), and its word is of format F4. -/
theorem bitwiseOrWritesDigitwiseOr : Obligations.BitwiseOrWritesDigitwiseOr := by
  refine fun a b c d s => ⟨?_, encode_eq_ok_of_f4 (i := .bitwiseOr a b c d) rfl⟩
  obtain ⟨t, hexec, hset, hframe⟩ := exec_frame_of_finish (exec_bitwiseOr a b c d s)
  have hdigits (n : Nat) : (t.memRead (idx b)).testBit n = ((s.vm.source c).testBit n || (s.vm.source d).testBit n) := by
    rw [hset, testBit_orOf]
  exact ⟨t, hexec, hdigits, hframe⟩

end Sys2Proof.Machine
end

section
/-! Accumulate instructions (44_accumulate.md): ADD and XOR, whose destination is their first source. -/

namespace Sys2Proof.Machine

/-- Settles O18: ADD ends in `finish` with the sum of its destination and its source, both read before the write
(`exec_add`), and its word is of format F3. -/
theorem addAccumulatesSum : Obligations.AddAccumulatesSum :=
  fun a b c s => ⟨exec_frame_of_finish (exec_add a b c s), encode_eq_ok_of_f3 (i := .add a b c) rfl⟩

/-- Every binary digit of the exclusive OR of two numbers, at any position (R141). -/
theorem testBit_xorOf (x y n : Nat) : (xorOf x y).testBit n = (x.testBit n ^^ y.testBit n) :=
  Nat.testBit_xor x y n

/-- Settles O19: XOR ends in `finish` with the exclusive OR of its destination and its source, both read before the write
(`exec_xor`), whose digits are known (`testBit_xorOf`), and its word is of format F3. -/
theorem xorAccumulatesDigitwiseXor : Obligations.XorAccumulatesDigitwiseXor := by
  refine fun a b c s => ⟨?_, encode_eq_ok_of_f3 (i := .xor a b c) rfl⟩
  obtain ⟨t, hexec, hset, hframe⟩ := exec_frame_of_finish (exec_xor a b c s)
  have hdigits (n : Nat) : (t.memRead (idx b)).testBit n = ((s.vm.source b).testBit n ^^ (s.vm.source c).testBit n) := by
    rw [hset, testBit_xorOf]
  exact ⟨t, hexec, hdigits, hframe⟩

end Sys2Proof.Machine
end

section
/-! Reset and the start of a run (70_reset_and_hazards.md R180): both are the one machine state `VmState.reset`, beside the
stream handed over. -/

namespace Sys2Proof.Machine

@[simp] theorem State.reset_vm : State.reset.vm = VmState.reset := rfl

@[simp] theorem VmState.reset_memRead (k : CellIdx) : VmState.reset.memRead k = 0 := rfl

/-- R180, of any state whose machine is the one at reset, whatever its stream. -/
theorem State.cleared_of_vm_eq_reset {s : State} (h : s.vm = VmState.reset) :
    (∀ k, s.memRead k = 0) ∧ s.pc = 0 ∧ s.errlog = [] := by
  rw [h]
  exact ⟨VmState.reset_memRead, VmState.reset_pc, VmState.reset_errlog⟩

/-- Settles O36: reset and every start of a run have the machine state `VmState.reset`, which is all clear
(`State.cleared_of_vm_eq_reset`). -/
theorem resetClearsEverything : Obligations.ResetClearsEverything := by
  obtain ⟨hmem, hpc, herrlog⟩ := State.cleared_of_vm_eq_reset State.reset_vm
  refine ⟨hmem, hpc, herrlog, fun stream => ?_⟩
  obtain ⟨hmem, hpc, herrlog⟩ := State.cleared_of_vm_eq_reset (State.load_vm stream)
  exact ⟨hmem, hpc, herrlog, State.load_stream stream⟩

end Sys2Proof.Machine
end

section
/-! The codec's laws (40_codec.md section 3): an instruction is its opcode and its fields, DECODE reads both off the word
at their places, and PACK puts them back there. -/

namespace Sys2Proof

theorem ofFields_opcode_fields (i : Instr) : Instr.ofFields i.opcode i.fields = i := by
  cases i with
  | loadConst | loadMem | storeMem | bitwiseOr | add | xor => rfl

theorem opcode_ofFields (o : Opcode) (f : Fields) : (Instr.ofFields o f).opcode = o := by
  cases o with
  | loadConst | loadMem | storeMem | bitwiseOr | add | xor => rfl

/-- An instruction has the fields of its opcode's layout and no others. -/
theorem fields_ofFields_layout (o : Opcode) (raw : Raw) :
    (Instr.ofFields o (layout o.format raw)).fields = layout o.format raw := by
  cases o with
  | loadConst | loadMem | storeMem | bitwiseOr | add | xor => rfl

/-- DECODE as one equivalence: the words that decode to an instruction are those with its opcode and its fields. -/
theorem decodeWord_eq_ok_iff {w : Word} {i : Instr} :
    decodeWord w = .ok i ↔
      w.toNat / 2 ^ 66 = i.opcode.num ∧ i.fields = layout i.opcode.format (unpack w).2 := by
  rw [decodeWord_eq]
  constructor
  · intro h
    cases ho : Opcode.ofNum? (w.toNat / 2 ^ 66) with
    | none => simp only [ho, reduceCtorEq] at h
    | some o =>
      simp only [ho, Except.ok.injEq] at h
      subst h
      rw [opcode_ofFields, fields_ofFields_layout]
      exact ⟨Opcode.ofNum?_eq_some.mp ho, rfl⟩
  · rintro ⟨hop, hfields⟩
    simp only [Opcode.ofNum?_eq_some.mpr hop, ← hfields, ofFields_opcode_fields]

/-- The same in arithmetic form (R53): each field is a group of the word's binary digits. -/
theorem decodeWord_eq_ok_iff_digits {w : Word} {i : Instr} :
    decodeWord w = .ok i ↔
      w.toNat / 2 ^ 66 = i.opcode.num ∧ i.fields.a = w.toNat / 2 ^ 60 % 2 ^ 6 ∧
      i.fields.b = w.toNat / 2 ^ 40 % 2 ^ 20 ∧ i.fields.c = w.toNat / 2 ^ 24 % 2 ^ 16 ∧
      (i.opcode.format = .f4 → i.fields.d = w.toNat / 2 ^ 4 % 2 ^ 20) := by
  rw [decodeWord_eq_ok_iff, layout_unpack]
  refine and_congr_right fun _ => ?_
  cases i with
  | loadConst | loadMem | storeMem | bitwiseOr | add | xor =>
    simp [Instr.opcode, Opcode.format, Instr.fields, Fields.a, Fields.b, Fields.c, Fields.d]

/-- The encoder as one equivalence (R82, R83). -/
theorem encode_eq_ok_iff {i : Instr} {w : Word} :
    encode i = .ok w ↔ i.fields.a ≤ 63 ∧ i.fields.b ≤ 1048575 ∧ i.fields.c ≤ 65535 ∧
      (i.opcode.format = .f4 → i.fields.d ≤ 1048575) ∧
      w.toNat = i.opcode.num * 2 ^ 66 + i.fields.a * 2 ^ 60 + i.fields.b * 2 ^ 40 + i.fields.c * 2 ^ 24 +
        if i.opcode.format = .f4 then i.fields.d * 2 ^ 4 else 0 :=
  pack_separate_eq_ok i.opcode i.fields.a i.fields.b i.fields.c i.fields.d w

/-- DECODE undoes the encoder: each field stands in the word between its neighbours, and none reaches into another. -/
theorem decodeWord_of_encode {i : Instr} {w : Word} (h : encode i = .ok w) : decodeWord w = .ok i := by
  obtain ⟨ha, hb, hc, hd, hw⟩ := encode_eq_ok_iff.mp h
  rw [decodeWord_eq_ok_iff_digits]
  cases hf : i.opcode.format with
  | f3 =>
    rw [hf, if_neg (by decide)] at hw
    refine ⟨?_, ?_, ?_, ?_, by simp⟩ <;> omega
  | f4 =>
    have hd := hd hf
    rw [hf, if_pos rfl] at hw
    refine ⟨?_, ?_, ?_, ?_, fun _ => ?_⟩ <;> omega

/-- The bytes decoder on a stream that begins with a word of an instruction. -/
theorem decodeBytes_of_decodeWord {w : Word} {i : Instr} (h : decodeWord w = .ok i) (rest : List Byte) :
    decodeBytes (bytesOfWord w ++ rest) = .ok (i, rest) := by
  rw [decodeBytes_bytesOfWord_append, h]

/-- Settles O1: the encoder has a word of every well-formed instruction (`encode_ok_iff_wf`), DECODE undoes it
(`decodeWord_of_encode`), and the bytes decoder runs DECODE on those nine bytes. -/
theorem decodeOfEncodeIsIdentity : Obligations.DecodeOfEncodeIsIdentity := by
  intro i hwf
  obtain ⟨w, hw⟩ := (Machine.encode_ok_iff_wf i).mpr hwf
  have hdec := decodeWord_of_encode hw
  exact ⟨w, hw, hdec, decodeBytes_of_decodeWord hdec⟩

theorem clearPad_toNat (f : Format) (w : Word) :
    (clearPad f w).toNat = w.toNat - w.toNat % 2 ^ (if f = .f4 then 4 else 24) := by
  have hlt := w.isLt
  cases f with
  | f3 => simp only [clearPad, BitVec.toNat_ofNat, reduceCtorEq, if_false]; omega
  | f4 => simp only [clearPad, BitVec.toNat_ofNat, if_true]; omega

/-- The encoder answers a decoded word's instruction with that word, its pad bits cleared. -/
theorem encode_of_decodeWord {w : Word} {i : Instr} (h : decodeWord w = .ok i) :
    encode i = .ok (clearPad i.opcode.format w) := by
  obtain ⟨hop, ha, hb, hc, hd⟩ := decodeWord_eq_ok_iff_digits.mp h
  rw [encode_eq_ok_iff, clearPad_toNat]
  cases hf : i.opcode.format with
  | f3 =>
    simp only [reduceCtorEq, if_false, false_implies, true_and]
    refine ⟨?_, ?_, ?_, ?_⟩ <;> omega
  | f4 =>
    have hd := hd hf
    simp only [if_true, true_implies]
    refine ⟨?_, ?_, ?_, ?_, ?_⟩ <;> omega

/-- Settles O2: the encoder clears the pad bits (`encode_of_decodeWord`), which changes the word unless they are 0. -/
theorem encodeOfDecodeClearsPad : Obligations.EncodeOfDecodeClearsPad := by
  intro w i h
  have henc := encode_of_decodeWord h
  refine ⟨(Machine.encode_ok_iff_wf i).mp ⟨_, henc⟩, henc, ?_⟩
  rw [henc, Except.ok.injEq, ← BitVec.toNat_inj, clearPad_toNat]
  have hle := Nat.mod_le w.toNat (2 ^ (if i.opcode.format = .f4 then 4 else 24))
  omega

/-- Settles O9: DECODE's opcode check passes on 0 to 5 (`ofNum?_eq_none`) and refuses the rest. -/
theorem decodingIsTotalByOpcode : Obligations.DecodingIsTotalByOpcode := by
  refine fun w => ⟨fun hle => ?_, Machine.decodeWord_of_five_lt⟩
  cases ho : Opcode.ofNum? (w.toNat / 2 ^ 66) with
  | none => exact absurd (Opcode.ofNum?_eq_none.mp ho) (by omega)
  | some o =>
    refine ⟨_, by rw [decodeWord_eq, ho], ?_⟩
    rw [opcode_ofFields, Opcode.ofNum?_eq_some.mp ho]

/-- Nine bytes are the bytes of their word (R51). -/
theorem bytesOfWord_wordOfBytes (b0 b1 b2 b3 b4 b5 b6 b7 b8 : Byte) :
    bytesOfWord (wordOfBytes [b0, b1, b2, b3, b4, b5, b6, b7, b8]) = [b0, b1, b2, b3, b4, b5, b6, b7, b8] := by
  have hw := wordBytesAreBigEndian.2 b0 b1 b2 b3 b4 b5 b6 b7 b8
  simp only [bytesOfWord, List.cons.injEq, and_true, ← BitVec.toNat_inj, BitVec.extractLsb'_toNat, hw,
    Nat.shiftRight_eq_div_pow]
  omega

/-- Settles O8: nine bytes are the bytes of a word (`bytesOfWord_wordOfBytes`), and DECODE reads the digits of their
base-256 sum (`decodeWord_eq_ok_iff_digits`). -/
theorem decoderReadsByteTable : Obligations.DecoderReadsByteTable := by
  intro b0 b1 b2 b3 b4 b5 b6 b7 b8 rest op a b c d answer
  have hw := wordBytesAreBigEndian.2 b0 b1 b2 b3 b4 b5 b6 b7 b8
  have hanswer : answer = decodeBytes (bytesOfWord (wordOfBytes [b0, b1, b2, b3, b4, b5, b6, b7, b8]) ++ rest) := by
    rw [bytesOfWord_wordOfBytes]
  generalize wordOfBytes [b0, b1, b2, b3, b4, b5, b6, b7, b8] = w at hw hanswer
  have hop : w.toNat / 2 ^ 66 = op := by omega
  have ha : w.toNat / 2 ^ 60 % 2 ^ 6 = a := by omega
  have hb : w.toNat / 2 ^ 40 % 2 ^ 20 = b := by omega
  have hc : w.toNat / 2 ^ 24 % 2 ^ 16 = c := by omega
  have hd : w.toNat / 2 ^ 4 % 2 ^ 20 = d := by omega
  have hok (i : Instr) (h : op = i.opcode.num ∧ i.fields.a = a ∧ i.fields.b = b ∧ i.fields.c = c ∧
      (i.opcode.format = .f4 → i.fields.d = d)) : answer = .ok (i, rest) := by
    rw [hanswer, decodeBytes_of_decodeWord (decodeWord_eq_ok_iff_digits.mpr (by rwa [hop, ha, hb, hc, hd]))]
  refine ⟨fun h => hok _ ⟨h, rfl, rfl, rfl, nofun⟩, fun h => hok _ ⟨h, rfl, rfl, rfl, nofun⟩,
    fun h => hok _ ⟨h, rfl, rfl, rfl, fun _ => rfl⟩, fun h => hok _ ⟨h, rfl, rfl, rfl, fun _ => rfl⟩,
    fun h => hok _ ⟨h, rfl, rfl, rfl, nofun⟩, fun h => hok _ ⟨h, rfl, rfl, rfl, nofun⟩, fun h => ?_⟩
  rw [hanswer, decodeBytes_bytesOfWord_append, Machine.decodeWord_of_five_lt (by omega), hop]

end Sys2Proof
end

section
/-! What an instruction writes (R34, R105): every instruction ends in `finish`, so its meaning is one cell and one value. -/

namespace Sys2Proof.Machine

/-- The value an instruction writes, formed from the old state (R41). -/
def resultOf (i : Instr) (v : VmState) : Nat :=
  match i with
  | .loadConst _ _ c => literal c
  | .loadMem _ _ c => v.source c
  | .storeMem _ _ c d => sumOf (v.source c) (v.source d)
  | .bitwiseOr _ _ c d => orOf (v.source c) (v.source d)
  | .add _ b c => sumOf (v.source b) (v.source c)
  | .xor _ b c => xorOf (v.source b) (v.source c)

/-- R105 and R34 at once: every instruction writes its result to the cell of its field B, and ends. -/
theorem exec_eq_finish (i : Instr) (s : State) :
    exec i s = .next ⟨s.vm.finish (idx i.dest) (resultOf i s.vm), s.stream⟩ := by
  cases i with
  | loadConst a b c => exact exec_loadConst a b c s
  | loadMem a b c => exact exec_loadMem a b c s
  | storeMem a b c d => exact exec_storeMem a b c d s
  | bitwiseOr a b c d => exact exec_bitwiseOr a b c d s
  | add a b c => exact exec_add a b c s
  | xor a b c => exact exec_xor a b c s

/-- Settles O20: what `finish` can do (`finish_spec`) is what every instruction does. -/
theorem everyInstructionWritesOneCell : Obligations.EveryInstructionWritesOneCell := by
  intro i s
  obtain ⟨-, hother, hwf, hpc, hlog⟩ := s.vm.finish_spec (idx i.dest) (resultOf i s.vm)
  exact ⟨_, exec_eq_finish i s, hother, hwf, hpc, hlog, rfl⟩

/-- An instruction completes and leaves its result in the cell of its field B. -/
theorem exec_dest (i : Instr) (s : State) : ∃ t, exec i s = .next t ∧ t.memRead (idx i.dest) = resultOf i s.vm :=
  ⟨_, exec_eq_finish i s, (s.vm.finish_spec _ _).1⟩

theorem VmState.source_eq (v : VmState) (n : Nat) : v.source n = v.memRead (idx n) := rfl

/-- Settles O23: the result is formed from the old cells, and every address names the destination's. -/
theorem destinationAsSourceReadsOldValue : Obligations.DestinationAsSourceReadsOldValue := by
  intro a b c d s hc hd
  have hsc : s.vm.source c = s.memRead (idx b) := congrArg s.memRead hc
  have hsd : s.vm.source d = s.memRead (idx b) := congrArg s.memRead hd
  have hdest (i : Instr) (x : Nat) (hx : resultOf i s.vm = x) :
      ∃ t, exec i s = .next t ∧ t.memRead (idx i.dest) = x := hx ▸ exec_dest i s
  refine ⟨hdest (.storeMem a b c d) _ ?_, hdest (.bitwiseOr a b c d) _ ?_, hdest (.add a b c) _ ?_,
    hdest (.xor a b c) _ ?_⟩
  · rw [resultOf, hsc, hsd, sumOf, Nat.two_mul]
  · rw [resultOf, hsc, hsd, orOf, Nat.or_self]
  · rw [resultOf, hsc, VmState.source_eq, sumOf, Nat.two_mul]
  · rw [resultOf, hsc, VmState.source_eq, xorOf, Nat.xor_self]

/-- Settles O27: a sum and an OR are the same in either order. -/
theorem sourcesCommute : Obligations.SourcesCommute := by
  refine fun a b c d s => ⟨?_, ?_⟩
  · rw [exec_storeMem, exec_storeMem, sumOf, Nat.add_comm, ← sumOf]
  · rw [exec_bitwiseOr, exec_bitwiseOr, orOf, Nat.or_comm, ← orOf]

/-- The OR counts a common digit of its sources once and the sum counts it twice; by recursion on the digits. -/
theorem orOf_le_add (x y : Nat) : orOf x y ≤ x + y := by
  change x ||| y ≤ x + y
  induction x using Nat.strong_induction_on generalizing y with
  | h x ih =>
    rcases Nat.eq_zero_or_pos x with rfl | hx
    · rw [Nat.zero_or, Nat.zero_add]
    · have hhigh : (x ||| y) / 2 ≤ x / 2 + y / 2 := Nat.or_div_two ▸ ih (x / 2) (Nat.div_lt_self hx one_lt_two) (y / 2)
      have hlow : (x ||| y) % 2 = 1 ↔ x % 2 = 1 ∨ y % 2 = 1 := Nat.or_mod_two_eq_one
      omega

/-- Settles O26: the bounds of a bitwise OR. -/
theorem bitwiseOrLiesBetweenBounds : Obligations.BitwiseOrLiesBetweenBounds := by
  intro a b c d s
  obtain ⟨t, hexec, hset⟩ := exec_dest (.bitwiseOr a b c d) s
  have hor : t.memRead (idx b) = orOf (s.memRead (idx c)) (s.memRead (idx d)) := hset
  refine ⟨t, hexec, ?_, ?_, fun n hc hd => ?_⟩
  · exact hor ▸ max_le Nat.left_le_or Nat.right_le_or
  · exact hor ▸ orOf_le_add _ _
  · exact hor ▸ Nat.or_lt_two_pow hc hd

/-! ## Writing back what a cell holds -/

theorem Memory.write_write_read {m : Memory} (h : m.wf) {k : Nat} (hk : k < Config.memCells) (v : Nat) :
    (m.write k v).write k (m.read k) = m := by
  refine ext_of_wf (write_wf (write_wf h v hk) _ hk) h fun j => ?_
  by_cases hj : j = k
  · rw [hj, read_write_same]
  · rw [read_write_other _ _ hj, read_write_other _ _ hj]

theorem Memory.write_read_self {m : Memory} (h : m.wf) {k : Nat} (hk : k < Config.memCells) :
    m.write k (m.read k) = m := by
  refine ext_of_wf (write_wf h _ hk) h fun j => ?_
  by_cases hj : j = k
  · rw [hj, read_write_same]
  · rw [read_write_other _ _ hj]

/-- Settles O24: writing back what a cell holds leaves a canonical Memory the same (`write_read_self`). -/
theorem selfCopyChangesNoMemory : Obligations.SelfCopyChangesNoMemory := by
  intro a b c s hwf hbc
  have hmem : s.mem.write (idx b) (s.vm.source c) = s.mem := by
    rw [VmState.source_eq, ← hbc]
    exact Memory.write_read_self hwf (idx b).isLt
  rw [exec_loadMem, VmState.finish, VmState.memWrite, hmem]
  rfl

/-- Settles O25: the second XOR finds its source untouched, forms the first value again and writes it back
(`write_write_read`). -/
theorem xorTwiceRestoresMemory : Obligations.XorTwiceRestoresMemory := by
  intro a b c s hwf hbc
  refine ⟨_, exec_xor a b c s, ?_⟩
  generalize hx : xorOf (s.vm.source b) (s.vm.source c) = x
  obtain ⟨hset, hother, -⟩ := s.vm.finish_spec (idx b) x
  have hback : xorOf ((s.vm.finish (idx b) x).source b) ((s.vm.finish (idx b) x).source c) = s.mem.read (idx b) := by
    rw [VmState.source_eq, VmState.source_eq, hset, hother _ hbc.symm, ← hx]
    exact Nat.xor_xor_cancel_right _ _
  rw [exec_xor, hback, VmState.finish, VmState.memWrite, VmState.finish_mem,
    Memory.write_write_read hwf (idx b).isLt]
  rfl

end Sys2Proof.Machine
end

section
/-! PACK's other modes and its ignored input (40_codec.md R84, R88), and the spec's own decode vectors. -/

namespace Sys2Proof

theorem pack_of_fields_le (mode : EncAMode) (o : Opcode) {a b c d : Nat} (ha : a ≤ 63) (hb : b ≤ 1048575)
    (hc : c ≤ 65535) (hd : d ≤ 1048575) :
    pack mode o.num a b c d = .ok (BitVec.ofNat 72 (packedNat mode (o.format = .f4) o.num a b c d)) := by
  rw [pack_num, if_neg ha.not_gt, if_neg hb.not_gt, if_neg hc.not_gt, if_neg fun h => hd.not_gt h.2]

/-- The word of an aliasing mode: `x` on the opcode bits, 0 at A's own position, B, C and D where they always are. -/
theorem aliasWord_digits (f4 : Bool) {x b c d : Nat} (hx : x < 64) (hb : b ≤ 1048575) (hc : c ≤ 65535)
    (hd : d ≤ 1048575) :
    let w := BitVec.ofNat 72 (x * 2 ^ 66 + b * 2 ^ 40 + c * 2 ^ 24 + if f4 then d * 2 ^ 4 else 0)
    (unpack w).1.toNat = x ∧ w.toNat / 2 ^ 60 % 64 = 0 := by
  have hlow : (if f4 then d * 2 ^ 4 else 0) < 2 ^ 24 := by split <;> omega
  intro w
  have hw : w.toNat = (x * 2 ^ 66 + b * 2 ^ 40 + c * 2 ^ 24 + if f4 then d * 2 ^ 4 else 0) % 2 ^ 72 :=
    BitVec.toNat_ofNat _ _
  rw [unpack_opcode_toNat]
  omega

/-- Settles O6: in range PACK answers the mode's sum (`pack_of_fields_le`), in the aliasing modes that sum has A on the
opcode bits alone (`aliasWord_digits`), and the three sums are one for A = 0. -/
theorem aliasModesPlaceFieldA : Obligations.AliasModesPlaceFieldA := by
  intro o a b c d ha hb hc hd
  have hop := o.num_le
  have hor : o.num ||| a < 64 := Nat.or_lt_two_pow (n := 6) (by omega) (by omega)
  have hif : (if a = 0 then o.num else a) < 64 := by split <;> omega
  refine ⟨⟨_, pack_of_fields_le _ o ha hb hc hd, aliasWord_digits _ hor hb hc hd⟩,
    ⟨_, pack_of_fields_le _ o ha hb hc hd, aliasWord_digits _ hif hb hc hd⟩, fun h0 mode => ?_⟩
  rw [pack_of_fields_le _ o ha hb hc hd, pack_of_fields_le _ o ha hb hc hd]
  subst h0
  cases mode with
  | separate => rfl
  | aliasOr | aliasReplace => simp [packedNat]

/-- Settles O5: for an F3 opcode neither PACK's last check nor its sum has a part of D. -/
theorem packIgnoresDForThreeOperands : Obligations.PackIgnoresDForThreeOperands := by
  intro mode o a b c d d' ho
  refine ⟨?_, ?_⟩
  · simp only [pack_num, ho, reduceCtorEq, false_and, if_false, packedNat, decide_false, Bool.false_eq_true]
  · simp [Machine.packLine, ho, Format.arity]

/-- Settles O11: each vector of 95_test_vectors.md 2.1 by running DECODE on it. -/
theorem specVectorsDecode : Obligations.SpecVectorsDecode := by
  unfold Obligations.SpecVectorsDecode
  decide

end Sys2Proof
end

section
/-! The operation a word denotes (30_encoding.md R64): what of an instruction its execution depends on. -/

namespace Sys2Proof

theorem Opcode.num_inj {o p : Opcode} : o.num = p.num ↔ o = p :=
  ⟨fun h => Option.some.inj (by rw [← Opcode.ofNum?_num, h, Opcode.ofNum?_num]), congrArg Opcode.num⟩

theorem Opcode.format_eq_f4_iff {o : Opcode} : o.format = .f4 ↔ o.num = 2 ∨ o.num = 3 := by
  cases o with
  | loadConst | loadMem | storeMem | bitwiseOr | add | xor => decide

theorem meaningKey_eq (i : Instr) :
    i.meaningKey = (i.opcode, i.fields.b % 1024 ::
      (if i.opcode.num = 0 then i.fields.c else i.fields.c % 1024) ::
      if i.opcode.num = 2 ∨ i.opcode.num = 3 then [i.fields.d % 1024] else []) := by
  cases i with
  | loadConst | loadMem | storeMem | bitwiseOr | add | xor => rfl

/-- The meaning of a decoded instruction, read off the word by the places of R53. -/
theorem meaningKey_of_decodeWord {w : Word} {i : Instr} (h : decodeWord w = .ok i) :
    i.meaningKey = (i.opcode, w.toNat / 2 ^ 40 % 1024 ::
      w.toNat / 2 ^ 24 % (if w.toNat / 2 ^ 66 = 0 then 65536 else 1024) ::
      if w.toNat / 2 ^ 66 = 2 ∨ w.toNat / 2 ^ 66 = 3 then [w.toNat / 2 ^ 4 % 1024] else []) := by
  obtain ⟨hop, -, hb, hc, hd⟩ := decodeWord_eq_ok_iff_digits.mp h
  rw [Opcode.format_eq_f4_iff] at hd
  simp only [meaningKey_eq, ← hop, hb, hc, Prod.mk.injEq, List.cons.injEq, true_and]
  refine ⟨by omega, by split <;> omega, ?_⟩
  split
  · rw [hd (hop ▸ ‹_›), List.cons.injEq]
    exact ⟨by omega, rfl⟩
  · rfl

namespace Machine

/-- What an operation consists of, in the form in which `Instr.meaningKey` lists it. -/
def Operation.key : Operation → Opcode × List Nat
  | .loadConst b literal => (.loadConst, [b, literal])
  | .loadMem b c => (.loadMem, [b, c])
  | .storeMem b c d => (.storeMem, [b, c, d])
  | .bitwiseOr b c d => (.bitwiseOr, [b, c, d])
  | .add b c => (.add, [b, c])
  | .xor b c => (.xor, [b, c])

theorem Operation.key_ofInstr (i : Instr) : (Operation.ofInstr i).key = i.meaningKey := by
  cases i with
  | loadConst | loadMem | storeMem | bitwiseOr | add | xor => rfl

theorem Operation.key_injective : Function.Injective Operation.key := by
  intro o p h
  cases o with
  | loadConst | loadMem | storeMem | bitwiseOr | add | xor => cases p <;> simp_all [Operation.key]

theorem Operation.ofInstr_eq_iff {i j : Instr} :
    Operation.ofInstr i = Operation.ofInstr j ↔ i.meaningKey = j.meaningKey := by
  rw [← key_ofInstr, ← key_ofInstr, key_injective.eq_iff]

/-- To execute an instruction is to carry out its operation on Memory and to advance. -/
theorem exec_eq_effect (i : Instr) (s : State) :
    exec i s = .next { s with mem := (Operation.ofInstr i).effect s.mem, pc := s.pc + 1 } := by
  cases i with
  | loadConst | loadMem | storeMem | bitwiseOr | add | xor => rfl

/-- Settles O12: the same opcode, cells and literal are the same operation (`Operation.ofInstr_eq_iff`), and `exec` carries
out the operation (`exec_eq_effect`). -/
theorem sameCellsExecuteAlike : Obligations.SameCellsExecuteAlike := by
  intro w v i j _ _ hkey s
  rw [exec_eq_effect, exec_eq_effect, Operation.ofInstr_eq_iff.mpr hkey]

/-- Refutes O13: ADD 0 0 1 and STORE_MEM 0 0 0 1 both write the sum of cells 0 and 1 to cell 0, with different opcodes. -/
theorem not_onlySameCellsExecuteAlike : ¬ Obligations.OnlySameCellsExecuteAlike := by
  intro h
  have hsame (s : State) : exec (.add 0 0 1) s = exec (.storeMem 0 0 0 1) s := by
    rw [exec_add, exec_storeMem]
  have hkey := h (.add 0 0 1) (.storeMem 0 0 0 1) (by decide) (by decide) hsame
  exact absurd hkey (by decide)

/-- Two decodable words denote one operation exactly when their instructions have one meaning. -/
theorem Operation.ofWord_common_iff {w v : Word} {i j : Instr} (hw : decodeWord w = .ok i) (hv : decodeWord v = .ok j) :
    (∃ o, Operation.ofWord w = .ok o ∧ Operation.ofWord v = .ok o) ↔ i.meaningKey = j.meaningKey := by
  simp [Operation.ofWord, hw, hv, Except.map, ← Operation.ofInstr_eq_iff, eq_comm]

/-- Settles O55: the operations agree when the meanings do (`Operation.ofWord_common_iff`), which the words show at the
places of R53 (`meaningKey_of_decodeWord`). -/
theorem sameOperationIffSameOpcodeAndCells : Obligations.SameOperationIffSameOpcodeAndCells := by
  refine ⟨fun w v hw hv => ?_, exec_eq_effect, fun o a b c d w hpack => ?_⟩
  · obtain ⟨i, hi, hiop⟩ := (decodingIsTotalByOpcode w).1 hw
    obtain ⟨j, hj, hjop⟩ := (decodingIsTotalByOpcode v).1 hv
    rw [Operation.ofWord_common_iff hi hj, meaningKey_of_decodeWord hi, meaningKey_of_decodeWord hj, Prod.mk.injEq,
      ← Opcode.num_inj, hiop, hjop]
    refine and_congr_right fun hop => ?_
    rw [← hop, List.cons.injEq, List.cons.injEq]
    refine and_congr_right fun _ => and_congr_right fun _ => ?_
    by_cases hf4 : w.toNat / 2 ^ 66 = 2 ∨ w.toNat / 2 ^ 66 = 3
    · simp only [hf4, if_true, List.cons.injEq, and_true, true_implies]
    · simp only [hf4, if_false, false_implies]
  · obtain ⟨ha, hb, hc, hd, hw⟩ := (pack_separate_eq_ok o a b c d w).mp hpack
    have hop := o.num_le
    cases hf : o.format with
    | f3 =>
      rw [hf, if_neg (by decide)] at hw
      refine ⟨?_, ?_, ?_, nofun⟩ <;> omega
    | f4 =>
      have hd := hd hf
      rw [hf, if_pos rfl] at hw
      refine ⟨?_, ?_, ?_, fun _ => ?_⟩ <;> omega

end Machine

end Sys2Proof
end

section
/-! The step as a function of the machine's state (R18): what a turn of the loop makes of it, said once, with what each
kind of turn leaves unchanged. -/

namespace Sys2Proof.Machine

/-- The machine's state after a step at a stream: a fetched word's instruction ended, its opcode reported, or the check on
the tail. -/
def VmState.next (stream : List Byte) (v : VmState) : VmState :=
  if v.pc < wordCount stream then
    match decodeWord (v.fetch stream) with
    | .ok i => v.finish (idx i.dest) (resultOf i v)
    | .error (.unknownOpcode op) => (v.raise .unknownOpcode op).advance
  else v.endOfStream stream

/-- Every step completes and hands the stream on. -/
theorem step_eq_next (s : State) : step s = .next ⟨s.vm.next s.stream, s.stream⟩ := by
  unfold step loopStep VmState.next
  split
  · unfold stepWord
    rcases decodeWord (s.vm.fetch s.stream) with ⟨⟨op⟩⟩ | i
    · rfl
    · exact exec_eq_finish i s
  · rfl

theorem stepOf_eq_next (stream : List Byte) (v : VmState) : stepOf stream v = .next (v.next stream) :=
  stepOf_of_step (step_eq_next ⟨v, stream⟩)

theorem VmState.next_of_decode_ok {v : VmState} {stream : List Byte} {i : Instr} (hpc : v.pc < wordCount stream)
    (h : decodeWord (v.fetch stream) = .ok i) : v.next stream = v.finish (idx i.dest) (resultOf i v) := by
  simp only [next, hpc, if_true, h]

theorem VmState.next_of_decode_error {v : VmState} {stream : List Byte} {op : Nat} (hpc : v.pc < wordCount stream)
    (h : decodeWord (v.fetch stream) = .error (.unknownOpcode op)) :
    v.next stream = (v.raise .unknownOpcode op).advance := by
  simp only [next, hpc, if_true, h]

theorem VmState.next_of_le {v : VmState} {stream : List Byte} (h : wordCount stream ≤ v.pc) :
    v.next stream = v.endOfStream stream :=
  if_neg h.not_gt

/-- The refusal of DECODE names an opcode in 6..63 (R60, R154). -/
theorem opcode_of_decodeWord_error {w : Word} {op : Nat} (h : decodeWord w = .error (.unknownOpcode op)) :
    6 ≤ op ∧ op ≤ 63 := by
  obtain ⟨hok, herror⟩ := decodingIsTotalByOpcode w
  have hlt := w.isLt
  rcases Nat.lt_or_ge 5 (w.toNat / 2 ^ 66) with hop | hop
  · rw [herror hop] at h
    cases h
    omega
  · obtain ⟨i, hi, -⟩ := hok hop
    simp [hi] at h

/-- All that a step can do, for the invariants: an instruction, a skipped word, nothing, or the report on the tail. -/
theorem VmState.next_cases (v : VmState) (stream : List Byte) :
    (v.pc < wordCount stream ∧ ∃ i, decodeWord (v.fetch stream) = .ok i ∧
      v.next stream = v.finish (idx i.dest) (resultOf i v)) ∨
    (v.pc < wordCount stream ∧ ∃ op, 6 ≤ op ∧ op ≤ 63 ∧ v.next stream = (v.raise .unknownOpcode op).advance) ∨
    (wordCount stream ≤ v.pc ∧ v.next stream = v) ∨
    (wordCount stream ≤ v.pc ∧ tailBytes stream ≠ 0 ∧ v.tailReported = false ∧
      v.next stream = v.raise .truncatedWord (tailBytes stream)) := by
  rcases Nat.lt_or_ge v.pc (wordCount stream) with hpc | hpc
  · cases h : decodeWord (v.fetch stream) with
    | ok i => exact .inl ⟨hpc, i, rfl, next_of_decode_ok hpc h⟩
    | error e =>
      obtain ⟨op⟩ := e
      obtain ⟨hlow, hhigh⟩ := opcode_of_decodeWord_error h
      exact .inr (.inl ⟨hpc, op, hlow, hhigh, next_of_decode_error hpc h⟩)
  · rw [next_of_le hpc]
    obtain ⟨h, -⟩ | ⟨h, htail, hrep⟩ := v.endOfStream_cases stream
    · exact .inr (.inr (.inl ⟨hpc, h⟩))
    · exact .inr (.inr (.inr ⟨hpc, htail, hrep, h⟩))

theorem VmState.tailReported_eq_false_iff {v : VmState} :
    v.tailReported = false ↔ ∀ r ∈ v.errlog, r.kind ≠ .truncatedWord := by
  simp [tailReported]

/-! ## The run invariant (R23) -/

/-- A record that fits and is no report on the tail is older than the state. -/
theorem ErrReport.slot_lt_of_fits {r : ErrReport} {s : State} (h : r.fits s) (hk : r.kind ≠ .truncatedWord) :
    r.slot < s.pc := by
  cases hr : r.kind with
  | unknownOpcode => exact (h.1 hr).1
  | truncatedWord => exact absurd hr hk

theorem ErrReport.slot_le_of_fits {r : ErrReport} {s : State} (h : r.fits s) : r.slot ≤ s.pc := by
  cases hr : r.kind with
  | unknownOpcode => exact (h.1 hr).1.le
  | truncatedWord => exact (h.2 hr).1.le

/-- While a block is left no report on the tail fits (R106). -/
theorem ErrReport.kind_ne_of_fits {r : ErrReport} {s : State} (h : r.fits s) (hpc : s.pc < wordCount s.stream) :
    r.kind ≠ .truncatedWord := fun hk => hpc.ne (h.2 hk).2.1

/-- A record that fits before a word is consumed fits after it. -/
theorem ErrReport.fits_of_pc_succ {r : ErrReport} {s : State} {v : VmState} (h : r.fits s)
    (hpc : s.pc < wordCount s.stream) (hv : v.pc = s.pc + 1) : r.fits ⟨v, s.stream⟩ :=
  ⟨fun hk => ⟨(h.1 hk).1.trans (hv ▸ Nat.lt_succ_self s.pc), (h.1 hk).2⟩, fun hk => absurd hk (kind_ne_of_fits h hpc)⟩

/-- A record with a slot of its own keeps the order of a log that is all older. -/
theorem pairwise_slot_append {l : List ErrReport} {r : ErrReport} (h : l.Pairwise fun q r => q.slot < r.slot)
    (hr : ∀ q ∈ l, q.slot < r.slot) : (l ++ [r]).Pairwise fun q r => q.slot < r.slot :=
  List.pairwise_append.mpr ⟨h, List.pairwise_singleton _ _, by simpa using hr⟩

/-- Settles O38, by what a step can do (`VmState.next_cases`): an appended record has the slot `pc`, and before it is
appended every record of the log is older. -/
theorem stepKeepsRunInvariant : Obligations.StepKeepsRunInvariant := by
  intro s t hinv hstep
  obtain ⟨hwf, hpc, hsorted, hfits⟩ := hinv
  rw [step_eq_next, Host.Outcome.next.injEq] at hstep
  subst hstep
  obtain ⟨hlt, i, -, hnext⟩ | ⟨hlt, op, hlow, hhigh, hnext⟩ | ⟨-, hnext⟩ | ⟨hle, htail, hrep, hnext⟩ :=
    s.vm.next_cases s.stream
  · rw [hnext]
    obtain ⟨-, -, hwf', hpc', hlog⟩ := s.vm.finish_spec (idx i.dest) (resultOf i s.vm)
    exact ⟨hwf' hwf, hpc' ▸ hlt, hlog ▸ hsorted, fun r hr => ErrReport.fits_of_pc_succ (hfits r (hlog ▸ hr)) hlt hpc'⟩
  · rw [hnext]
    have hold : ∀ r ∈ s.errlog, r.slot < s.pc := fun r hr =>
      ErrReport.slot_lt_of_fits (hfits r hr) (ErrReport.kind_ne_of_fits (hfits r hr) hlt)
    refine ⟨hwf, hlt, pairwise_slot_append hsorted hold, fun r hr => ?_⟩
    rcases List.mem_append.mp hr with hr | hr
    · exact ErrReport.fits_of_pc_succ (hfits r hr) hlt rfl
    · rw [List.mem_singleton.mp hr]
      exact ⟨fun _ => ⟨Nat.lt_succ_self _, hlow, hhigh⟩, nofun⟩
  · rw [hnext]
    exact ⟨hwf, hpc, hsorted, hfits⟩
  · rw [hnext]
    have hold : ∀ r ∈ s.errlog, r.slot < s.pc := fun r hr =>
      ErrReport.slot_lt_of_fits (hfits r hr) (VmState.tailReported_eq_false_iff.mp hrep r hr)
    refine ⟨hwf, hpc, pairwise_slot_append hsorted hold, fun r hr => ?_⟩
    rcases List.mem_append.mp hr with hr | hr
    · exact hfits r hr
    · rw [List.mem_singleton.mp hr]
      exact ⟨nofun, fun _ => ⟨rfl, hpc.antisymm hle, rfl, htail⟩⟩

/-- Settles O37: the machine state of reset has no cell and no record, and its `pc` is 0. -/
theorem resetMeetsRunInvariant : Obligations.ResetMeetsRunInvariant := by
  have hload (stream : List Byte) : (State.load stream).Inv := by simp [State.Inv, Memory.wf]
  exact ⟨hload [], hload⟩

/-- Settles O39: the slots of the log are distinct numbers up to `pc`, and a report on the tail has the last of them. -/
theorem errlogIsBoundedBySlots : Obligations.ErrlogIsBoundedBySlots := by
  rintro s ⟨-, -, hsorted, hfits⟩
  refine ⟨?_, fun l r l' hlog hk => ?_⟩
  · have hnodup : (s.errlog.map ErrReport.slot).Nodup :=
      List.pairwise_map.mpr (hsorted.imp fun h => h.ne)
    have hsub : s.errlog.map ErrReport.slot ⊆ List.range (s.pc + 1) := by
      intro k hk
      obtain ⟨r, hr, rfl⟩ := List.mem_map.mp hk
      exact List.mem_range.mpr (Nat.lt_succ_of_le (ErrReport.slot_le_of_fits (hfits r hr)))
    simpa using (hnodup.subperm hsub).length_le
  · rw [hlog] at hsorted hfits
    refine List.eq_nil_iff_forall_not_mem.mpr fun q hq => ?_
    have hlt : r.slot < q.slot := (List.pairwise_cons.mp (List.pairwise_append.mp hsorted).2.1).1 q hq
    have hr : r.slot = s.pc := ((hfits r (by simp)).2 hk).1
    have hle : q.slot ≤ s.pc := ErrReport.slot_le_of_fits (hfits q (by simp [hq]))
    omega

/-! ## One step -/

theorem VmState.over_eq_true_iff {v : VmState} {stream : List Byte} :
    v.over stream = true ↔ wordCount stream ≤ v.pc ∧ (tailBytes stream = 0 ∨ v.tailReported = true) := by
  simp [VmState.over]

/-- A tail not yet reported is reported (R106). -/
theorem VmState.endOfStream_of_tail {v : VmState} {stream : List Byte} (htail : tailBytes stream ≠ 0)
    (hrep : v.tailReported = false) : v.endOfStream stream = v.raise .truncatedWord (tailBytes stream) := by
  simp [endOfStream, htail, hrep]

/-- The check on the tail ends the run (R19, R108). -/
theorem VmState.over_endOfStream {v : VmState} {stream : List Byte} (h : wordCount stream ≤ v.pc) :
    (v.endOfStream stream).over stream = true := by
  rw [over_eq_true_iff]
  obtain ⟨heq, hdone⟩ | ⟨heq, -⟩ := v.endOfStream_cases stream
  · rw [heq]
    exact ⟨h, hdone⟩
  · rw [heq]
    exact ⟨h, .inr (by simp [tailReported])⟩

theorem VmState.next_of_over {v : VmState} {stream : List Byte} (h : v.over stream = true) : v.next stream = v := by
  obtain ⟨hpc, hdone⟩ := over_eq_true_iff.mp h
  rw [next_of_le hpc, endOfStream, if_pos (by simpa using hdone)]

/-- Settles O32: with the blocks consumed and the tail checked, the step is the check, which has nothing to do. -/
theorem stepAfterTheRunChangesNothing : Obligations.StepAfterTheRunChangesNothing := by
  intro s h
  rw [step_eq_next, VmState.next_of_over h]

/-- Settles O31: the check on a tail not yet reported is the report, and after it the run is over. -/
theorem trailingBytesReportedOnce : Obligations.TrailingBytesReportedOnce := by
  intro s hpc htail hnone
  have hle : wordCount s.stream ≤ s.pc := hpc.ge
  have hnext : s.vm.next s.stream = s.raise .truncatedWord (tailBytes s.stream) := by
    rw [VmState.next_of_le hle, VmState.endOfStream_of_tail htail (VmState.tailReported_eq_false_iff.mpr hnone)]
  refine ⟨_, step_eq_next s, ?_, ?_⟩
  · rw [VmState.next_of_le hle]
    exact VmState.over_endOfStream hle
  · rw [hnext]
    exact ⟨rfl, rfl, rfl, by rw [VmState.raise_errlog, hpc]; rfl⟩

theorem VmState.next_pc_of_lt {v : VmState} {stream : List Byte} (h : v.pc < wordCount stream) :
    (v.next stream).pc = v.pc + 1 := by
  obtain ⟨-, i, -, hnext⟩ | ⟨-, op, -, -, hnext⟩ | ⟨hle, -⟩ | ⟨hle, -⟩ := v.next_cases stream
  · rw [hnext, finish_pc]
  · rw [hnext, advance_pc, raise_pc]
  · exact absurd hle h.not_ge
  · exact absurd hle h.not_ge

/-- Settles O33: every step completes (`step_eq_next`), a turn of the loop advances (`VmState.next_pc_of_lt`), and the
check on the tail touches the error log alone. -/
theorem everyStepConsumesOneSlot : Obligations.EveryStepConsumesOneSlot := by
  refine fun s => ⟨_, step_eq_next s, rfl, VmState.next_pc_of_lt, fun hle => ?_⟩
  rw [VmState.next_of_le hle]
  obtain ⟨heq, -⟩ | ⟨heq, -⟩ := s.vm.endOfStream_cases s.stream
  · simp [heq]
  · simp [heq]

/-- Settles O34, by what a step can do (`VmState.next_cases`). -/
theorem errlogOnlyGrows : Obligations.ErrlogOnlyGrows := by
  intro s t hstep
  rw [step_eq_next, Host.Outcome.next.injEq] at hstep
  subst hstep
  obtain ⟨-, i, -, hnext⟩ | ⟨-, op, -, -, hnext⟩ | ⟨-, hnext⟩ | ⟨-, -, -, hnext⟩ := s.vm.next_cases s.stream
  · exact ⟨[], by simp [hnext], by simp, by simp⟩
  · exact ⟨[⟨s.pc, .unknownOpcode, op⟩], by simp [hnext], by simp, by simp⟩
  · exact ⟨[], by simp [hnext], by simp, by simp⟩
  · exact ⟨[⟨s.pc, .truncatedWord, tailBytes s.stream⟩], by simp [hnext], by simp, by simp⟩

/-- Settles O50: an instruction and a step each are a function on the machine's state (`exec_eq_finish`,
`step_eq_next`), the instruction's one that takes no stream. -/
theorem streamIsOnlyTheRunsArgument : Obligations.StreamIsOnlyTheRunsArgument :=
  ⟨fun i v bs bs' => ⟨_, exec_eq_finish i ⟨v, bs⟩, exec_eq_finish i ⟨v, bs'⟩⟩,
    fun stream v => ⟨_, stepOf_eq_next stream v, step_eq_next ⟨v, stream⟩⟩⟩

/-! ## The bound on cell magnitude (R24) -/

theorem decoded_c_lt {w : Word} {i : Instr} (h : decodeWord w = .ok i) : i.fields.c < 2 ^ 16 := by
  obtain ⟨-, -, -, hc, -⟩ := decodeWord_eq_ok_iff_digits.mp h
  omega

/-- The result of an instruction stays below a power of two that its sources and its literal are below, but for a sum,
which stays below the next. -/
theorem resultOf_lt {i : Instr} {v : VmState} {n : Nat} (hc : i.fields.c < 2 ^ n) (hv : ∀ k, v.memRead k < 2 ^ n) :
    resultOf i v < 2 ^ n ∨ i.adds = true ∧ resultOf i v < 2 ^ (n + 1) := by
  have hsum (k j : CellIdx) : sumOf (v.memRead k) (v.memRead j) < 2 ^ (n + 1) := by
    have hk := hv k
    have hj := hv j
    rw [sumOf, pow_succ]
    omega
  cases i with
  | loadConst a b c => exact .inl hc
  | loadMem a b c => exact .inl (hv _)
  | storeMem a b c d => exact .inr ⟨rfl, hsum _ _⟩
  | bitwiseOr a b c d => exact .inl (Nat.or_lt_two_pow (hv _) (hv _))
  | add a b c => exact .inr ⟨rfl, hsum _ _⟩
  | xor a b c => exact .inl (Nat.xor_lt_two_pow (hv _) (hv _))

theorem VmState.finish_memRead_lt {v : VmState} {i : CellIdx} {x n : Nat} (hx : x < n) (hv : ∀ k, v.memRead k < n)
    (k : CellIdx) : (v.finish i x).memRead k < n := by
  obtain ⟨hset, hother, -⟩ := v.finish_spec i x
  by_cases hk : k = i
  · rw [hk, hset]
    exact hx
  · rw [hother k hk]
    exact hv k

/-- Settles O28: the one cell an instruction sets is bounded by `resultOf_lt`, and any other step leaves Memory as it
was. -/
theorem cellBoundGrowsOneBitPerAdd : Obligations.CellBoundGrowsOneBitPerAdd := by
  intro s t n hn hs hstep
  rw [step_eq_next, Host.Outcome.next.injEq] at hstep
  subst hstep
  obtain ⟨-, i, hdec, hnext⟩ | ⟨-, op, -, -, hnext⟩ | ⟨-, hnext⟩ | ⟨-, -, -, hnext⟩ := s.vm.next_cases s.stream
  · rw [hnext]
    have hc : i.fields.c < 2 ^ n := (decoded_c_lt hdec).trans_le (Nat.pow_le_pow_right two_pos hn)
    rcases resultOf_lt hc hs with hlt | ⟨hadds, hlt⟩
    · exact .inl (VmState.finish_memRead_lt hlt hs)
    · refine .inr ⟨⟨i, hdec, hadds⟩, VmState.finish_memRead_lt hlt fun k => (hs k).trans ?_⟩
      exact Nat.pow_lt_pow_right one_lt_two n.lt_succ_self
  · exact .inl (by simpa [hnext] using hs)
  · exact .inl (by simpa [hnext] using hs)
  · exact .inl (by simpa [hnext] using hs)

end Sys2Proof.Machine
end

section
/-! The run (41_interpreter.md): one step of the machine is one step of the fold, and the steps of a run are the iterates
of `VmState.next`. -/

namespace Sys2Proof.Machine

theorem foldStep_of_decode_ok {m : Memory} {log : List ErrReport} {block : List Byte} {k : Nat} {i : Instr}
    (h : decodeWord (wordOfBytes block) = .ok i) : foldStep (m, log) (block, k) = (tableEffect i m, log) := by
  simp only [foldStep, execBlock, h]

theorem foldStep_of_decode_error {m : Memory} {log : List ErrReport} {block : List Byte} {k op : Nat}
    (h : decodeWord (wordOfBytes block) = .error (.unknownOpcode op)) :
    foldStep (m, log) (block, k) = (m, log ++ [{ slot := k, kind := .unknownOpcode, info := op }]) := by
  simp only [foldStep, execBlock, h]

theorem finish_mem_eq_tableEffect (i : Instr) (v : VmState) :
    (v.finish (idx i.dest) (resultOf i v)).mem = tableEffect i v.mem := by
  cases i with
  | loadConst | loadMem | storeMem | bitwiseOr | add | xor => rfl

/-- While a block is left, a step does to Memory and the error log what the fold does with that block (R111). -/
theorem VmState.next_eq_foldStep {v : VmState} {stream : List Byte} (h : v.pc < wordCount stream) :
    ((v.next stream).mem, (v.next stream).errlog) = foldStep (v.mem, v.errlog) (blockAt stream v.pc, v.pc) := by
  cases hdec : decodeWord (v.fetch stream) with
  | ok i => rw [next_of_decode_ok h hdec, foldStep_of_decode_ok hdec, finish_mem_eq_tableEffect, finish_errlog]
  | error e =>
    obtain ⟨op⟩ := e
    rw [next_of_decode_error h hdec, foldStep_of_decode_error hdec]
    rfl

/-- What a step of the fold makes of Memory depends on Memory and the block's word alone. -/
theorem foldStep_mem_congr {m : Memory} {log log' : List ErrReport} {block block' : List Byte} {k k' : Nat}
    (hword : wordOfBytes block = wordOfBytes block') :
    (foldStep (m, log) (block, k)).1 = (foldStep (m, log') (block', k')).1 := by
  cases hdec : decodeWord (wordOfBytes block) with
  | ok i => rw [foldStep_of_decode_ok hdec, foldStep_of_decode_ok (hword ▸ hdec)]
  | error e =>
    obtain ⟨op⟩ := e
    rw [foldStep_of_decode_error hdec, foldStep_of_decode_error (hword ▸ hdec)]

/-- Settles O35: both steps are steps of the fold (`VmState.next_eq_foldStep`), on blocks of one word. -/
theorem nextMemoryDependsOnWordAlone : Obligations.NextMemoryDependsOnWordAlone := by
  intro s u hmem hfetch hs hu
  refine ⟨_, _, step_eq_next s, step_eq_next u, ?_⟩
  calc (s.vm.next s.stream).mem
      = (foldStep (s.mem, s.errlog) (blockAt s.stream s.pc, s.pc)).1 := congrArg Prod.fst (VmState.next_eq_foldStep hs)
    _ = (foldStep (u.mem, u.errlog) (blockAt u.stream u.pc, u.pc)).1 := hmem ▸ foldStep_mem_congr hfetch
    _ = (u.vm.next u.stream).mem := (congrArg Prod.fst (VmState.next_eq_foldStep hu)).symm

theorem coreRun_eq_iterate (s : State) (n : Nat) :
    Host.Core.run Sys2Proof.core n s = .next ⟨(VmState.next s.stream)^[n] s.vm, s.stream⟩ := by
  induction n generalizing s with
  | zero => exact coreRun_zero s
  | succ n ih => rw [coreRun_succ (step_eq_next s), ih, Function.iterate_succ_apply]

theorem stepsOf_eq_iterate (stream : List Byte) (v : VmState) (n : Nat) :
    stepsOf stream n v = .next ((VmState.next stream)^[n] v) := by
  induction n generalizing v with
  | zero => exact stepsOf_zero stream v
  | succ n ih => rw [stepsOf_succ (stepOf_eq_next stream v), ih, Function.iterate_succ_apply]

/-- The state after `k` words of the run of a stream. -/
def stateAfter (stream : List Byte) (k : Nat) : VmState := (VmState.next stream)^[k] VmState.reset

/-- The fold over the first `k` blocks of a stream. -/
def foldUpTo (stream : List Byte) (k : Nat) : Memory × List ErrReport :=
  (List.range k).foldl (fun acc j => foldStep acc (blockAt stream j, j)) ([], [])

theorem stateAfter_succ (stream : List Byte) (k : Nat) :
    stateAfter stream (k + 1) = (stateAfter stream k).next stream :=
  Function.iterate_succ_apply' _ _ _

theorem foldUpTo_succ (stream : List Byte) (k : Nat) :
    foldUpTo stream (k + 1) = foldStep (foldUpTo stream k) (blockAt stream k, k) := by
  simp [foldUpTo, List.range_succ]

/-- The fold of R111 numbers its blocks by their place. -/
theorem foldFinal_eq (stream : List Byte) :
    foldFinal stream =
      ((foldUpTo stream (wordCount stream)).1, (foldUpTo stream (wordCount stream)).2 ++ tailReport stream) := by
  have hzip : (blocksOf stream).zipIdx = (List.range (wordCount stream)).map fun j => (blockAt stream j, j) := by
    apply List.ext_getElem <;> simp [blocksOf]
  simp only [foldFinal, hzip, List.foldl_map, foldUpTo]

theorem foldStep_kinds {m : Memory} {log : List ErrReport} {block : List Byte} {k : Nat}
    (h : ∀ r ∈ log, r.kind ≠ .truncatedWord) : ∀ r ∈ (foldStep (m, log) (block, k)).2, r.kind ≠ .truncatedWord := by
  intro r hr
  cases hdec : decodeWord (wordOfBytes block) with
  | ok i => exact h r (by rwa [foldStep_of_decode_ok hdec] at hr)
  | error e =>
    obtain ⟨op⟩ := e
    rw [foldStep_of_decode_error hdec] at hr
    rcases List.mem_append.mp hr with hr | hr
    · exact h r hr
    · rw [List.mem_singleton.mp hr]
      nofun

/-- After `k` words of a run `pc` is `k`, Memory and the log are those of the fold over `k` blocks, and the tail is not
reported yet. -/
theorem stateAfter_spec (stream : List Byte) {k : Nat} (hk : k ≤ wordCount stream) :
    (stateAfter stream k).pc = k ∧
      ((stateAfter stream k).mem, (stateAfter stream k).errlog) = foldUpTo stream k ∧
      (stateAfter stream k).tailReported = false := by
  induction k with
  | zero => exact ⟨rfl, rfl, rfl⟩
  | succ k ih =>
    obtain ⟨hpc, hfold, hrep⟩ := ih (by omega)
    have hlt : (stateAfter stream k).pc < wordCount stream := by omega
    have hstep := VmState.next_eq_foldStep hlt
    rw [← stateAfter_succ, hpc] at hstep
    refine ⟨by rw [stateAfter_succ, VmState.next_pc_of_lt hlt, hpc], by rw [hstep, hfold, foldUpTo_succ], ?_⟩
    rw [VmState.tailReported_eq_false_iff] at hrep ⊢
    have hlog : (stateAfter stream (k + 1)).errlog = _ := congrArg Prod.snd hstep
    rw [hlog]
    exact foldStep_kinds hrep

/-- Settles O42: the host's run is the iteration of `VmState.next`, each a word while there is one (`stateAfter_spec`). -/
theorem runTakesOneStepPerWord : Obligations.RunTakesOneStepPerWord := by
  intro stream k hk
  obtain ⟨hpc, -⟩ := stateAfter_spec stream hk
  exact ⟨_, coreRun_eq_iterate (State.load stream) k, hpc, rfl, fun hall htail =>
    VmState.over_eq_true_iff.mpr ⟨(hall.symm.trans hpc.symm).le, .inl htail⟩⟩

/-- RUN ends in the state after all words, the tail checked (R100). -/
theorem finalOf_eq (stream : List Byte) :
    finalOf stream = some ((stateAfter stream (wordCount stream)).endOfStream stream) := by
  simp only [finalOf, stepsOf_eq_iterate, stateAfter]

theorem run_of_finalOf {stream : List Byte} {v : VmState} (h : finalOf stream = some v) :
    run stream = some { snapshot := snapshot v.mem, errlog := v.errlog } := by
  rw [run, h, Option.map_some]

/-- The check on the tail makes the fold's last report (R106). -/
theorem endOfStream_of_not_reported {v : VmState} {stream : List Byte} (hpc : v.pc = wordCount stream)
    (h : v.tailReported = false) :
    (v.endOfStream stream).mem = v.mem ∧ (v.endOfStream stream).errlog = v.errlog ++ tailReport stream := by
  by_cases htail : tailBytes stream = 0
  · simp [VmState.endOfStream, tailReport, htail]
  · simp [VmState.endOfStream_of_tail htail h, tailReport, htail, hpc]

/-- Settles O41: the state after all words has the Memory and the log of the fold (`stateAfter_spec`), and the check on the
tail adds what the fold adds. -/
theorem runEqualsFoldOverBlocks : Obligations.RunEqualsFoldOverBlocks := by
  intro stream
  obtain ⟨hpc, hfold, hrep⟩ := stateAfter_spec stream le_rfl
  obtain ⟨hmem, hlog⟩ := endOfStream_of_not_reported hpc hrep
  have hfinal := finalOf_eq stream
  generalize (stateAfter stream (wordCount stream)).endOfStream stream = v at hmem hlog hfinal
  have heq : (v.mem, v.errlog) = foldFinal stream := by
    rw [foldFinal_eq, ← hfold, hmem, hlog]
  refine ⟨⟨v, hfinal, heq⟩, ?_⟩
  rw [run_of_finalOf hfinal, foldRun, ← heq]

/-- Settles O51: the step after the last word is the check on the tail, with which RUN ends, and the steps after it change
nothing (`VmState.next_of_over`). -/
theorem hostRunAnswersRun : Obligations.HostRunAnswersRun := by
  intro stream n hn
  have hfinal := finalOf_eq stream
  have hle : wordCount stream ≤ (stateAfter stream (wordCount stream)).pc := (stateAfter_spec stream le_rfl).1.ge
  have hover := VmState.over_endOfStream hle
  have hiter : stateAfter stream n = (stateAfter stream (wordCount stream)).endOfStream stream := by
    induction n, (show wordCount stream + 1 ≤ n from hn) using Nat.le_induction with
    | base => rw [stateAfter_succ, VmState.next_of_le hle]
    | succ m hm ih => rw [stateAfter_succ, ih hm, VmState.next_of_over hover]
  refine ⟨_, coreRun_eq_iterate (State.load stream) n, rfl, ?_⟩
  change (stateAfter stream n).over stream = true ∧ finalOf stream = some (stateAfter stream n) ∧
    (stateAfter stream n).result stream = run stream
  rw [hiter]
  exact ⟨hover, hfinal, by rw [VmState.result_of_over hover, run_of_finalOf hfinal]⟩

end Sys2Proof.Machine
end

section
/-! Lines, tokens, mnemonics and operands (30_encoding.md R66 to R70): where a text is cut, and what one token names. -/

namespace Sys2Proof.Machine

/-! ## Lines and tokens -/

theorem isLineFeed_eq_false {line : List Char} (h : '\n' ∉ line) : ∀ c ∈ line, decide (c.toNat = 10) = false := by
  intro c hc
  have hne : c ≠ '\n' := fun heq => h (heq ▸ hc)
  simpa [← Char.toNat_inj] using hne

theorem linesOf_line {line : List Char} (h : '\n' ∉ line) : linesOf line = [line] :=
  splitAtChar_of_forall (isLineFeed_eq_false h)

theorem tokensOf_blanks_append {blanks : List Char} (h : ∀ c ∈ blanks, isSpaceChar c = true) (line : List Char) :
    tokensOf (blanks ++ line) = tokensOf line := by
  induction blanks with
  | nil => rfl
  | cons c cs ih =>
    obtain ⟨hc, hcs⟩ := List.forall_mem_cons.mp h
    rw [List.cons_append, tokensOf_cons_of_isSpaceChar hc, ih hcs]

theorem tokensOf_token {t : List Char} (ht : t ≠ []) (h : ∀ c ∈ t, isSpaceChar c = false) : tokensOf t = [t] := by
  simp [tokensOf, splitAtChar_of_forall h, ht]

theorem tokensOf_token_append {t : List Char} (ht : t ≠ []) (h : ∀ c ∈ t, isSpaceChar c = false) {c : Char}
    (hc : isSpaceChar c = true) (rest : List Char) : tokensOf (t ++ c :: rest) = t :: tokensOf rest := by
  simp [tokensOf, splitAtChar_append rest h hc, ht]

theorem isSpaceChar_iff_toNat {c : Char} : isSpaceChar c = true ↔ c.toNat = 32 ∨ 9 ≤ c.toNat ∧ c.toNat ≤ 13 := by
  simp [isSpaceChar]

theorem isSpaceChar_iff (c : Char) : isSpaceChar c = true ↔
    c = ' ' ∨ c = '\t' ∨ c = '\n' ∨ c = Char.ofNat 11 ∨ c = Char.ofNat 12 ∨ c = '\r' := by
  have hvt : (Char.ofNat 11).toNat = 11 := rfl
  have hff : (Char.ofNat 12).toNat = 12 := rfl
  simp only [isSpaceChar_iff_toNat, ← Char.toNat_inj, hvt, hff, Char.reduceToNat]
  omega

/-- Settles O52: a text is cut by `splitAtChar` at line feeds and a line at whitespace, the empty pieces dropped. -/
theorem linesAndTokensSplitTheText : Obligations.LinesAndTokensSplitTheText := by
  refine ⟨fun line rest h => ⟨linesOf_line h, ?_⟩, fun blanks line h => ⟨?_, tokensOf_blanks_append h line⟩,
    fun t rest c ht h hc => ⟨tokensOf_token ht h, tokensOf_token_append ht h hc rest⟩, isSpaceChar_iff⟩
  · exact splitAtChar_append rest (isLineFeed_eq_false h) (by decide)
  · rw [← List.append_nil blanks, tokensOf_blanks_append h]
    rfl

/-! ## Mnemonics -/

/-- A token names an opcode when its upper-case form is the opcode's name; the names are distinct. -/
theorem lookupMnemonic_eq_some_iff {token : List Char} {o : Opcode} :
    lookupMnemonic token = some o ↔ token.map upperChar = o.mnemonic := by
  constructor
  · intro h
    have hfound := List.find?_some h
    exact (of_decide_eq_true hfound).symm
  · intro h
    rw [lookupMnemonic, h]
    cases o with
    | loadConst | loadMem | storeMem | bitwiseOr | add | xor => rfl

theorem char_le_iff_toNat_le {c d : Char} : c ≤ d ↔ c.toNat ≤ d.toNat := Iff.rfl

/-- R69: `c` is the character `n`, or the lower-case form of the capital `n`. -/
def IsCaseOf (c n : Char) : Prop := c = n ∨ ('A' ≤ n ∧ n ≤ 'Z' ∧ c.toNat = n.toNat + 32)

theorem upperChar_toNat (c : Char) :
    (upperChar c).toNat = if 97 ≤ c.toNat ∧ c.toNat ≤ 122 then c.toNat - 32 else c.toNat := by
  by_cases h : 97 ≤ c.toNat ∧ c.toNat ≤ 122
  · have hvalid : (c.toNat - 32).isValidChar := .inl (by omega)
    simp [upperChar, h, Char.toNat_ofNat, hvalid]
  · have hkeep : upperChar c = c := if_neg (by simpa using h)
    rw [hkeep, if_neg h]

/-- Only the letters of a name have a second form. -/
theorem upperChar_eq_iff {c n : Char} (hn : ¬(97 ≤ n.toNat ∧ n.toNat ≤ 122)) : upperChar c = n ↔ IsCaseOf c n := by
  have hA : 'A'.toNat = 65 := rfl
  have hZ : 'Z'.toNat = 90 := rfl
  rw [IsCaseOf, ← Char.toNat_inj, ← Char.toNat_inj, upperChar_toNat, char_le_iff_toNat_le, char_le_iff_toNat_le, hA, hZ]
  split <;> omega

theorem map_upperChar_eq_iff {token name : List Char} (h : ∀ n ∈ name, ¬(97 ≤ n.toNat ∧ n.toNat ≤ 122)) :
    token.map upperChar = name ↔ List.Forall₂ IsCaseOf token name := by
  induction name generalizing token with
  | nil => cases token <;> simp
  | cons n name ih =>
    obtain ⟨hn, hname⟩ := List.forall_mem_cons.mp h
    cases token with
    | nil => simp
    | cons c token => simp [upperChar_eq_iff hn, ih hname]

theorem mnemonic_not_lower (o : Opcode) : ∀ n ∈ o.mnemonic, ¬(97 ≤ n.toNat ∧ n.toNat ≤ 122) := by
  cases o with
  | loadConst | loadMem | storeMem | bitwiseOr | add | xor => simp [Opcode.mnemonic]

theorem lookupMnemonic_iff_isCaseOf {token : List Char} {o : Opcode} :
    lookupMnemonic token = some o ↔ List.Forall₂ IsCaseOf token o.mnemonic :=
  lookupMnemonic_eq_some_iff.trans (map_upperChar_eq_iff (mnemonic_not_lower o))

/-- Settles O47: the names have no lower-case letter, so a character becomes a name's exactly when it is a form of it
(`upperChar_eq_iff`). -/
theorem mnemonicCaseIsNotSignificant : Obligations.MnemonicCaseIsNotSignificant :=
  fun _ => ⟨lookupMnemonic_iff_isCaseOf, lookupMnemonic_iff_isCaseOf, lookupMnemonic_iff_isCaseOf,
    lookupMnemonic_iff_isCaseOf, lookupMnemonic_iff_isCaseOf, lookupMnemonic_iff_isCaseOf⟩

/-- A mnemonic is a token: it is not empty and has no whitespace. -/
theorem visible_of_lookupMnemonic {token : List Char} {o : Opcode} (h : lookupMnemonic token = some o) :
    token ≠ [] ∧ ∀ c ∈ token, isSpaceChar c = false := by
  have hmap := lookupMnemonic_eq_some_iff.mp h
  have hname : o.mnemonic ≠ [] ∧ ∀ c ∈ o.mnemonic, isSpaceChar c = false := by
    cases o with
    | loadConst | loadMem | storeMem | bitwiseOr | add | xor => simp [Opcode.mnemonic, isSpaceChar]
  refine ⟨fun hnil => hname.1 (by simp [← hmap, hnil]), fun c hc => Bool.eq_false_iff.mpr fun hs => ?_⟩
  have hkeep : upperChar c = c := by
    have hcode := isSpaceChar_iff_toNat.mp hs
    rw [← Char.toNat_inj, upperChar_toNat, if_neg (by omega)]
  have hmem : c ∈ o.mnemonic := hmap ▸ List.mem_map.mpr ⟨c, hc, hkeep⟩
  simp [hname.2 c hmem] at hs

/-! ## Operands -/

/-- R70 as one equivalence: the tokens that are operands, and their values. -/
theorem parseOperand_eq_some_iff {t : List Char} {v : Nat} :
    parseOperand t = some v ↔
      t ≠ [] ∧ (∀ c ∈ t, '0' ≤ c ∧ c ≤ '9') ∧ t.foldl (fun n c => n * 10 + (c.toNat - 48)) 0 = v := by
  rw [parseOperand_eq, ← and_assoc, ite_eq_iff]
  simp [char_le_iff_toNat_le]

theorem visible_of_parseOperand {t : List Char} {v : Nat} (h : parseOperand t = some v) :
    t ≠ [] ∧ ∀ c ∈ t, isSpaceChar c = false := by
  obtain ⟨hne, hdigits, -⟩ := parseOperand_eq_some_iff.mp h
  refine ⟨hne, fun c hc => ?_⟩
  have hlow : 48 ≤ c.toNat := (hdigits c hc).1
  rw [Bool.eq_false_iff, ne_eq, isSpaceChar_iff_toNat]
  omega

theorem parseOperand_digit {c : Char} (hlow : '0' ≤ c) (hhigh : c ≤ '9') :
    parseOperand [c] = some (c.toNat - '0'.toNat) :=
  parseOperand_eq_some_iff.mpr ⟨List.cons_ne_nil _ _, by simpa using ⟨hlow, hhigh⟩, by simp⟩

/-- One more digit at the end is one more place in base ten. -/
theorem parseOperand_append_digit {t : List Char} {v : Nat} {c : Char} (h : parseOperand t = some v) (hlow : '0' ≤ c)
    (hhigh : c ≤ '9') : parseOperand (t ++ [c]) = some (10 * v + (c.toNat - '0'.toNat)) := by
  obtain ⟨-, hdigits, hvalue⟩ := parseOperand_eq_some_iff.mp h
  refine parseOperand_eq_some_iff.mpr ⟨by simp, ?_, ?_⟩
  · intro x hx
    rcases List.mem_append.mp hx with hx | hx
    · exact hdigits x hx
    · rw [List.mem_singleton.mp hx]
      exact ⟨hlow, hhigh⟩
  · rw [List.foldl_append, hvalue, Nat.mul_comm]
    rfl

theorem parseOperand_zero_cons {t : List Char} {v : Nat} (h : parseOperand t = some v) :
    parseOperand ('0' :: t) = some v := by
  obtain ⟨-, hdigits, hvalue⟩ := parseOperand_eq_some_iff.mp h
  exact parseOperand_eq_some_iff.mpr ⟨List.cons_ne_nil _ _, List.forall_mem_cons.mpr ⟨by decide, hdigits⟩, hvalue⟩

theorem exists_value_of_forall₂ {ts : List (List Char)} {vs : List Nat}
    (h : List.Forall₂ (fun t v => parseOperand t = some v) ts vs) : ∀ t ∈ ts, ∃ v, parseOperand t = some v := by
  induction h with
  | nil => simp
  | cons hv _ ih => exact List.forall_mem_cons.mpr ⟨⟨_, hv⟩, ih⟩

/-- The operands are not read when one of them has no value. -/
theorem parseOperands_of_malformed {ts : List (List Char)} {t : List Char} (ht : t ∈ ts) (h : parseOperand t = none) :
    ∃ t' ∈ ts, parseOperand t' = none ∧ parseOperands ts = .error (.malformedOperand t') := by
  cases hp : parseOperands ts with
  | error e =>
    obtain ⟨t', ht', hnone, rfl⟩ := parseOperands_error hp
    exact ⟨t', ht', hnone, rfl⟩
  | ok vs =>
    obtain ⟨v, hv⟩ := exists_value_of_forall₂ (parseOperands_ok_iff.mp hp) t ht
    rw [h] at hv
    cases hv

end Sys2Proof.Machine
end

section
/-! Lines and texts (30_encoding.md R71 to R74): what a line is answered with, and how the lines make the text's answer. -/

namespace Sys2Proof.Machine

/-- R72: how many operands an opcode takes. -/
theorem arity_eq (o : Opcode) : o.format.arity = if o = .storeMem ∨ o = .bitwiseOr then 4 else 3 := by
  cases o with
  | loadConst | loadMem | storeMem | bitwiseOr | add | xor => rfl

/-! ## One line -/

theorem isInstructionLine_iff {line : List Char} :
    isInstructionLine line = true ↔ ∃ m ts, tokensOf line = m :: ts ∧ m.head? ≠ some Config.commentMark := by
  unfold isInstructionLine
  cases tokensOf line with
  | nil => simp
  | cons m ts => simp [Config.commentMark]

theorem assembleLine_of_not_instruction {line : List Char} (h : isInstructionLine line = false) :
    assembleLine Config.commentMark line = .ok none := by
  unfold isInstructionLine at h
  unfold assembleLine
  cases ht : tokensOf line with
  | nil => rfl
  | cons m ts => simp_all [Config.commentMark]

theorem assembleLine_of_lookup_none {mark : Char} {line m : List Char} {ts : List (List Char)}
    (ht : tokensOf line = m :: ts) (hm : m.head? ≠ some mark) (ho : lookupMnemonic m = none) :
    assembleLine mark line = .error (.unknownMnemonic m) := by
  simp only [assembleLine, ht, hm, ho, if_false]

theorem assembleLine_of_lookup_some {mark : Char} {line m : List Char} {ts : List (List Char)} {o : Opcode}
    (ht : tokensOf line = m :: ts) (hm : m.head? ≠ some mark) (ho : lookupMnemonic m = some o) :
    assembleLine mark line = ((parseOperands ts).bind (packLine o)).map some := by
  simp only [assembleLine, ht, hm, ho, if_false]

/-- A line whose operands are read is answered by their packing. -/
theorem assembleLine_of_operands {mark : Char} {line m : List Char} {ts : List (List Char)} {o : Opcode} {vs : List Nat}
    (ht : tokensOf line = m :: ts) (hm : m.head? ≠ some mark) (ho : lookupMnemonic m = some o)
    (hvs : parseOperands ts = .ok vs) : assembleLine mark line = (packLine o vs).map some := by
  rw [assembleLine_of_lookup_some ht hm ho, hvs]
  rfl

theorem packLine_of_lt {o : Opcode} {vs : List Nat} (h : vs.length < o.format.arity) :
    packLine o vs = .error .missingOperands :=
  if_pos h

theorem packLine_of_gt {o : Opcode} {vs : List Nat} (h : o.format.arity < vs.length) :
    packLine o vs = .error .surplusOperands := by
  rw [packLine, if_neg h.not_gt, if_pos h]

/-- PACK on the values of a line, in layout order; the missing D of format F3 is not read (R84). -/
def packValues (o : Opcode) (vs : List Nat) : Except PackError Word :=
  pack Config.encAMode o.num (vs.getD 0 0) (vs.getD 1 0) (vs.getD 2 0) (vs.getD 3 0)

theorem packLine_of_pack_error {o : Opcode} {vs : List Nat} {e : PackError} (hlen : vs.length = o.format.arity)
    (h : packValues o vs = .error e) : packLine o vs = .error (.packError e) := by
  rw [packValues] at h
  simp only [packLine, hlen, lt_irrefl, if_false, h]

theorem packLine_eq_ok_iff {o : Opcode} {vs : List Nat} {x : LogEntry} :
    packLine o vs = .ok x ↔
      x.op = o ∧ x.fields = vs ∧ vs.length = o.format.arity ∧ packValues o vs = .ok x.word := by
  rcases lt_trichotomy vs.length o.format.arity with h | h | h
  · simp [packLine_of_lt h, h.ne]
  · cases hp : packValues o vs with
    | error e => simp [packLine_of_pack_error h hp]
    | ok w =>
      have hline : packLine o vs = .ok ⟨o, vs, w⟩ := by
        rw [packValues] at hp
        simp only [packLine, h, lt_irrefl, if_false, hp]
      obtain ⟨op, fields, word⟩ := x
      simp [hline, h, eq_comm]
  · simp [packLine_of_gt h, h.ne']

/-- On an opcode of the catalog PACK refuses a value at most (R152). -/
theorem packValues_error {o : Opcode} {vs : List Nat} {e : PackError} (h : packValues o vs = .error e) :
    ∃ f x, e = .rangeError f x := by
  rw [packValues, pack_num] at h
  split_ifs at h <;> cases h <;> exact ⟨_, _, rfl⟩

theorem packLine_eq_packError {o : Opcode} {vs : List Nat} {e : PackError} (h : packLine o vs = .error (.packError e)) :
    ∃ f x, e = .rangeError f x := by
  rcases lt_trichotomy vs.length o.format.arity with hlen | hlen | hlen
  · simp [packLine_of_lt hlen] at h
  · cases hp : packValues o vs with
    | ok w =>
      rw [packLine_eq_ok_iff (x := ⟨o, vs, w⟩) |>.mpr ⟨rfl, rfl, hlen, hp⟩] at h
      cases h
    | error e' =>
      rw [packLine_of_pack_error hlen hp] at h
      cases h
      exact packValues_error hp
  · simp [packLine_of_gt hlen] at h

/-- A line is answered by an entry exactly when it is an instruction and names that entry. -/
theorem assembleLine_eq_some_iff {line : List Char} {x : LogEntry} :
    assembleLine Config.commentMark line = .ok (some x) ↔ isInstructionLine line = true ∧ LineNames line x := by
  cases hi : isInstructionLine line with
  | false => simp [assembleLine_of_not_instruction hi]
  | true =>
    obtain ⟨m, ts, ht, hm⟩ := isInstructionLine_iff.mp hi
    cases ho : lookupMnemonic m with
    | none => simp [assembleLine_of_lookup_none ht hm ho, ht, ho]
    | some o =>
      have hnames : LineNames line x ↔ ∃ vs, parseOperands ts = .ok vs ∧ packLine o vs = .ok x := by
        simp only [packLine_eq_ok_iff, arity_eq, parseOperands_ok_iff]
        constructor
        · rintro ⟨m', ts', ht', ho', hvs, hlen, hpack⟩
          obtain ⟨rfl, rfl⟩ := List.cons.inj (ht.symm.trans ht')
          obtain rfl := Option.some.inj (ho.symm.trans ho')
          exact ⟨x.fields, hvs, rfl, rfl, hlen, hpack⟩
        · rintro ⟨vs, hvs, rfl, rfl, hlen, hpack⟩
          exact ⟨m, ts, ht, ho, hvs, hlen, hpack⟩
      rw [assembleLine_of_lookup_some ht hm ho, hnames]
      cases hvs : parseOperands ts with
      | error e => simp [Except.bind, Except.map]
      | ok vs => cases hx : packLine o vs <;> simp [Except.bind, Except.map, hx]

/-- An instruction line is answered by an entry or an error, never by nothing. -/
theorem assembleLine_ne_none {line : List Char} (h : isInstructionLine line = true) :
    assembleLine Config.commentMark line ≠ .ok none := by
  obtain ⟨m, ts, ht, hm⟩ := isInstructionLine_iff.mp h
  cases ho : lookupMnemonic m with
  | none => simp [assembleLine_of_lookup_none ht hm ho]
  | some o =>
    rw [assembleLine_of_lookup_some ht hm ho]
    cases (parseOperands ts).bind (packLine o) <;> simp [Except.map]

/-- A RangeError is the only error of PACK that answers a line (R152). -/
theorem assembleLine_eq_packError {line : List Char} {e : PackError}
    (h : assembleLine Config.commentMark line = .error (.packError e)) : ∃ f x, e = .rangeError f x := by
  cases hi : isInstructionLine line with
  | false => simp [assembleLine_of_not_instruction hi] at h
  | true =>
    obtain ⟨m, ts, ht, hm⟩ := isInstructionLine_iff.mp hi
    cases ho : lookupMnemonic m with
    | none => simp [assembleLine_of_lookup_none ht hm ho] at h
    | some o =>
      cases hvs : parseOperands ts with
      | error e' =>
        obtain ⟨t, -, -, rfl⟩ := parseOperands_error hvs
        simp [assembleLine_of_lookup_some ht hm ho, hvs, Except.bind, Except.map] at h
      | ok vs =>
        rw [assembleLine_of_operands ht hm ho hvs] at h
        cases hp : packLine o vs with
        | ok x => simp [hp, Except.map] at h
        | error e' =>
          simp only [hp, Except.map, Except.error.injEq] at h
          exact packLine_eq_packError (h ▸ hp)

/-! ## The lines of a text -/

/-- R74: the log of a text is the entries its instruction lines name. -/
theorem assembleLines_eq_ok_iff {ls : List (List Char)} {log : List LogEntry} :
    assembleLines Config.commentMark ls = .ok log ↔ List.Forall₂ LineNames (ls.filter isInstructionLine) log := by
  induction ls generalizing log with
  | nil => cases log <;> simp [assembleLines]
  | cons l ls ih =>
    cases hi : isInstructionLine l with
    | false => simp only [assembleLines, assembleLine_of_not_instruction hi, ih, hi, List.filter_cons]; rfl
    | true =>
      rw [List.filter_cons_of_pos hi]
      cases hl : assembleLine Config.commentMark l with
      | error e =>
        have hno (x : LogEntry) : ¬LineNames l x := fun hx => by
          simp [assembleLine_eq_some_iff.mpr ⟨hi, hx⟩] at hl
        cases log <;> simp [assembleLines, hl, hno]
      | ok o =>
        cases o with
        | none => exact absurd hl (assembleLine_ne_none hi)
        | some x =>
          have hone (y : LogEntry) : LineNames l y ↔ x = y := by
            have hy := assembleLine_eq_some_iff (line := l) (x := y)
            simpa [hl, hi] using hy.symm
          cases hls : assembleLines Config.commentMark ls with
          | error e => cases log <;> simp [assembleLines, hl, hls, hone, ← ih, Except.map]
          | ok rest => cases log <;> simp [assembleLines, hl, hls, hone, ← ih, Except.map]

theorem assembleLines_append_error {mark : Char} {earlier later : List (List Char)} {line : List Char} {e : AsmError}
    (hearlier : ∀ l ∈ earlier, ∃ x, assembleLine mark l = .ok x) (hline : assembleLine mark line = .error e) :
    assembleLines mark (earlier ++ line :: later) = .error e := by
  induction earlier with
  | nil => simp [assembleLines, hline]
  | cons l ls ih =>
    obtain ⟨⟨x, hx⟩, hls⟩ := List.forall_mem_cons.mp hearlier
    cases x <;> simp [assembleLines, hx, ih hls, Except.map]

/-- The text's error is the error of one of its lines. -/
theorem exists_line_of_assembleLines_error {mark : Char} {ls : List (List Char)} {e : AsmError}
    (h : assembleLines mark ls = .error e) : ∃ l ∈ ls, assembleLine mark l = .error e := by
  induction ls with
  | nil => cases h
  | cons l ls ih =>
    cases hl : assembleLine mark l with
    | error e' =>
      simp only [assembleLines, hl, Except.error.injEq] at h
      exact ⟨l, by simp, by rw [hl, h]⟩
    | ok x =>
      have hls : assembleLines mark ls = .error e := by
        cases x with
        | none => simpa [assembleLines, hl] using h
        | some x =>
          cases hls : assembleLines mark ls with
          | ok log => simp [assembleLines, hl, hls, Except.map] at h
          | error e' => simpa [assembleLines, hl, hls, Except.map] using h
      obtain ⟨l', hmem, hl'⟩ := ih hls
      exact ⟨l', List.mem_cons_of_mem _ hmem, hl'⟩

theorem assemble_eq_ok_iff {text : List Char} {bs : List Byte} {log : List LogEntry} :
    assemble text = .ok (bs, log) ↔
      assembleLines Config.commentMark (linesOf text) = .ok log ∧ bs = log.flatMap fun x => bytesOfWord x.word := by
  cases h : assembleLines Config.commentMark (linesOf text) with
  | error e => simp [assemble, h, Except.map]
  | ok log' =>
    simp only [assemble, h, Except.map, Except.ok.injEq, Prod.mk.injEq]
    constructor
    · rintro ⟨rfl, rfl⟩
      exact ⟨rfl, rfl⟩
    · rintro ⟨rfl, rfl⟩
      exact ⟨rfl, rfl⟩

theorem assemble_eq_error_iff {text : List Char} {e : AsmError} :
    assemble text = .error e ↔ assembleLines Config.commentMark (linesOf text) = .error e := by
  cases h : assembleLines Config.commentMark (linesOf text) <;> simp [assemble, h, Except.map]

/-- All or nothing (R74): a line in error leaves the text without a stream. -/
theorem assemble_error_of_line {text line : List Char} {e : AsmError} (hmem : line ∈ linesOf text)
    (h : assembleLine Config.commentMark line = .error e) : ∃ e', assemble text = .error e' := by
  simpa only [assemble_eq_error_iff] using assembleLines_error hmem h

theorem forall₂_of_forall_exists {α β : Type} {R : α → β → Prop} {l : List α} (h : ∀ a ∈ l, ∃ b, R a b) :
    ∃ l', List.Forall₂ R l l' := by
  induction l with
  | nil => exact ⟨[], .nil⟩
  | cons a l ih =>
    obtain ⟨⟨b, hb⟩, hl⟩ := List.forall_mem_cons.mp h
    obtain ⟨l', hl'⟩ := ih hl
    exact ⟨b :: l', .cons hb hl'⟩

/-! ## The statements -/

/-- Settles O44: the text's log is the entries its lines name (`assembleLines_eq_ok_iff`), nine bytes for each. -/
theorem assembledStreamIsTheLogsWords : Obligations.AssembledStreamIsTheLogsWords := by
  refine ⟨fun text bs log h => ?_, fun text h => ?_⟩
  · obtain ⟨hlog, rfl⟩ := assemble_eq_ok_iff.mp h
    have hnames := assembleLines_eq_ok_iff.mp hlog
    refine ⟨hnames, rfl, ?_⟩
    simp [hnames.length_eq, List.length_flatMap, Nat.mul_comm]
  · obtain ⟨log, hlog⟩ := forall₂_of_forall_exists h
    exact ⟨_, log, assemble_eq_ok_iff.mpr ⟨assembleLines_eq_ok_iff.mpr hlog, rfl⟩⟩

/-- Settles O45: the look-up comes first in a line, and the first line in error in a text. -/
theorem badLineAbortsAssembly : Obligations.BadLineAbortsAssembly := by
  refine ⟨fun line m ts ht hm ho => ⟨assembleLine_of_lookup_none ht hm ho, rfl⟩,
    fun text line earlier later e htext hearlier hline => ?_, fun text line e => assemble_error_of_line⟩
  rw [assemble_eq_error_iff, htext]
  exact assembleLines_append_error hearlier hline

/-- Settles O46: the operands are counted before PACK sees them (`packLine_of_lt`, `packLine_of_gt`). -/
theorem operandCountMustMatchFormat : Obligations.OperandCountMustMatchFormat := by
  refine ⟨fun text line m ts o vs hmem ht hm ho hvs => ?_, rfl, rfl⟩
  rw [← arity_eq]
  have hline := assembleLine_of_operands ht hm ho hvs
  refine ⟨fun hlt => ?_, fun hgt => ?_⟩
  · have herror : assembleLine Config.commentMark line = .error .missingOperands := by
      rw [hline, packLine_of_lt hlt]
      rfl
    exact ⟨herror, assemble_error_of_line hmem herror⟩
  · have herror : assembleLine Config.commentMark line = .error .surplusOperands := by
      rw [hline, packLine_of_gt hgt]
      rfl
    exact ⟨herror, assemble_error_of_line hmem herror⟩

/-- Settles O49: a value is the base-ten fold over digits alone (`parseOperand_eq_some_iff`), and a token without one stops
the reading of its line (`parseOperands_of_malformed`). -/
theorem operandsAreDecimalDigits : Obligations.OperandsAreDecimalDigits := by
  refine ⟨fun token => by simp [parseOperand_eq_some_iff], fun c => parseOperand_digit,
    fun token v c h hlow hhigh => ⟨parseOperand_append_digit h hlow hhigh, parseOperand_zero_cons h⟩,
    fun text line m t ts o hmem ht hm ho hin hnone => ?_⟩
  obtain ⟨t', hin', hnone', hvs⟩ := parseOperands_of_malformed hin hnone
  have herror : assembleLine Config.commentMark line = .error (.malformedOperand t') := by
    rw [assembleLine_of_lookup_some (mark := Config.commentMark) ht hm ho, hvs]
    rfl
  exact ⟨⟨t', hin', hnone', herror, rfl⟩, assemble_error_of_line hmem herror⟩

/-- Settles O54: PACK's refusal is the line's answer (`packLine_of_pack_error`), and of a listed opcode it is a RangeError
(`assembleLine_eq_packError`). -/
theorem outOfRangeOperandAborts : Obligations.OutOfRangeOperandAborts := by
  refine ⟨fun text line m ts o vs e hmem ht hm ho hvs hlen hpack => ?_, fun text e h => ?_⟩
  · have herror : assembleLine Config.commentMark line = .error (.packError e) := by
      rw [assembleLine_of_operands (mark := Config.commentMark) ht hm ho (parseOperands_ok_iff.mpr hvs),
        packLine_of_pack_error (hlen.trans (arity_eq o).symm) hpack]
      rfl
    exact ⟨herror, assemble_error_of_line hmem herror⟩
  · obtain ⟨line, -, hline⟩ := exists_line_of_assembleLines_error (assemble_eq_error_iff.mp h)
    obtain ⟨f, x, rfl⟩ := assembleLine_eq_packError hline
    exact ⟨f, x, rfl, rfl⟩

/-! ## An instruction's text -/

/-- A mnemonic and its operands, each after a space, are cut into just these tokens. -/
theorem tokensOf_instructionText {m : List Char} {ts : List (List Char)}
    (hm : m ≠ [] ∧ ∀ c ∈ m, isSpaceChar c = false) (hts : ∀ t ∈ ts, t ≠ [] ∧ ∀ c ∈ t, isSpaceChar c = false) :
    tokensOf (m ++ ts.flatMap fun t => ' ' :: t) = m :: ts := by
  induction ts generalizing m with
  | nil => simpa using tokensOf_token hm.1 hm.2
  | cons t ts ih =>
    obtain ⟨ht, hts⟩ := List.forall_mem_cons.mp hts
    rw [List.flatMap_cons, List.cons_append, tokensOf_token_append hm.1 hm.2 (by decide), ih ht hts]

theorem linesOf_instructionText {m : List Char} {ts : List (List Char)} (hm : ∀ c ∈ m, isSpaceChar c = false)
    (hts : ∀ t ∈ ts, ∀ c ∈ t, isSpaceChar c = false) :
    linesOf (m ++ ts.flatMap fun t => ' ' :: t) = [m ++ ts.flatMap fun t => ' ' :: t] := by
  refine linesOf_line fun hmem => ?_
  have hlf : isSpaceChar '\n' ≠ false := by decide
  rcases List.mem_append.mp hmem with h | h
  · exact hlf (hm _ h)
  · obtain ⟨t, ht, h⟩ := List.mem_flatMap.mp h
    rcases List.mem_cons.mp h with h | h
    · exact absurd h (by decide)
    · exact hlf (hts t ht _ h)

theorem operands_length (i : Instr) : i.operands.length = i.opcode.format.arity := by
  cases i with
  | loadConst | loadMem | storeMem | bitwiseOr | add | xor => rfl

/-- The encoder is PACK on the operands of the source line. -/
theorem encode_eq_packValues (i : Instr) : encode i = packValues i.opcode i.operands := by
  cases i with
  | loadConst | loadMem | storeMem | bitwiseOr | add | xor => rfl

/-- Settles O53: the text is one line of these tokens (`linesOf_instructionText`, `tokensOf_instructionText`), and the entry
that line names has the encoder's word (`encode_eq_packValues`). -/
theorem instructionTextAssemblesToItsWord : Obligations.InstructionTextAssemblesToItsWord := by
  intro i m ts hwf hm hts
  obtain ⟨w, hw⟩ := (encode_ok_iff_wf i).mpr hwf
  have hmv := visible_of_lookupMnemonic hm
  have htv : ∀ t ∈ ts, t ≠ [] ∧ ∀ c ∈ t, isSpaceChar c = false := fun t ht =>
    visible_of_parseOperand (exists_value_of_forall₂ hts t ht).choose_spec
  have htokens := tokensOf_instructionText hmv htv
  have hlines := linesOf_instructionText hmv.2 fun t ht => (htv t ht).2
  generalize (m ++ ts.flatMap fun t => ' ' :: t) = text at htokens hlines ⊢
  have hhead : m.head? ≠ some Config.commentMark := fun hmark => by
    have hnone := lookupMnemonic_eq_none_of_hash_mem (List.mem_of_mem_head? hmark)
    rw [hm] at hnone
    cases hnone
  have hinstr : isInstructionLine text = true := isInstructionLine_iff.mpr ⟨m, ts, htokens, hhead⟩
  have hnames : LineNames text ⟨i.opcode, i.operands, w⟩ :=
    ⟨m, ts, htokens, hm, hts, (operands_length i).trans (arity_eq _), (encode_eq_packValues i).symm.trans hw⟩
  have hlog : assembleLines Config.commentMark (linesOf text) = .ok [⟨i.opcode, i.operands, w⟩] := by
    rw [hlines, assembleLines_eq_ok_iff, List.filter_cons_of_pos hinstr]
    exact .cons hnames .nil
  exact ⟨w, hw, assemble_eq_ok_iff.mpr ⟨hlog, by simp⟩⟩

end Sys2Proof.Machine
end
